-- ==== Sys2Proof/Word.lean ====
section
/-! DEFINITION. The values the block moves: a Bit (R8), a byte of 8 positions (R9), the control word (R61), and the
two closed sets of names the spec gives codes to: the type tags (R62) and the error statuses (R130). -/

namespace Sys2Proof

/-- A Bit: exactly two values, false = 0 and true = 1 (R8). -/
abbrev Bit := Bool

/-- A byte: 8 positions p(0)..p(7), p(0) the most significant (R9). `Machine.pos` reads a position. -/
abbrev Byte := BitVec 8

/-- The 8-bit control word, always numbered LSB-0 (R10, R61). -/
abbrev Ctl := BitVec 8

/-- The three type tags of R62. Code `11` is reserved and no register ever holds it (R23), so it has no name here:
log entry 5. `Tag.code` gives the codes. -/
inductive Tag where
  /-- BYTE, letter B, the source's ByteUnit. -/
  | byte
  /-- UCHAR, letter U, the source's UnsignedChar. -/
  | uchar
  /-- CHAR, letter S, the source's Char. -/
  | char
deriving DecidableEq, Repr, Inhabited

/-- The eight values of the 3-bit status ERR, in the order of R130's codes. `Err.code` gives the codes. -/
inductive Err where
  /-- Code 0: the last request succeeded (R132). -/
  | none
  /-- Code 1: N lies outside the domain of a DEC (R133). -/
  | range
  /-- Code 2: never raised (R136). -/
  | arity
  /-- Code 3: never raised (R136). -/
  | type
  /-- Code 4: the operands of an addition are not addable (R134). -/
  | unsupported
  /-- Code 5: never raised (R136). -/
  | structural
  /-- Code 6: the control word is reserved (R135). -/
  | illegal
  /-- Code 7: reserved, never written (R130). -/
  | reserved
deriving DecidableEq, Repr, Inhabited

end Sys2Proof
end

