-- ==== Sys2Proof/Machine/Operands.lean ====
section
/-! DEFINITION. The positions of a byte and the two parallel converters: `val` (byte to integer, R81) and `byte` (integer
to byte, R82). -/

namespace Sys2Proof.Machine

/-- `D.p(i)`: position `i` of a byte, position 0 the most significant, weight `2^(7-i)` (R9). -/
def pos (d : Byte) (i : Nat) : Bit := d.getMsbD i

/-- `D` with `p(k) <- b`, every other position as it was. Used inside one converter or adder step only: the block has
no request that writes one position (R4, R45). -/
def setPos (d : Byte) (k : Nat) (b : Bit) : Byte :=
  let mask : Byte := 1#8 <<< (7 - k)
  if b then d ||| mask else d &&& ~~~mask

/-- The byte whose position `i` is `f i`, for `i` in 0..7. -/
def ofPositions (f : Nat → Bit) : Byte :=
  (List.range 8).foldl (fun d i => setPos d i (f i)) 0#8

/-- The parallel encoder: `val(D) = Σ D.p(i) * 2^(7-i)` (R81). -/
def val (d : Byte) : Nat :=
  ((List.range 8).map fun i => (pos d i).toNat * 2 ^ (7 - i)).sum

/-- The parallel decoder: `byte(n).p(i) = floor(n / 2^(7-i)) mod 2` (R82). The block applies it to values in [0,255]
only: log entry 10. -/
def byte (n : Nat) : Byte :=
  ofPositions fun i => n / 2 ^ (7 - i) % 2 == 1

end Sys2Proof.Machine
end

