-- ==== Sys2Proof/Machine/Adder.lean ====
section
/-! DEFINITION. The 8-bit carry-propagating adder: the full-adder cell (R101) and the chain over the 8 positions (R102). -/

namespace Sys2Proof.Machine

/-- The full-adder cell: the sum bit is the sum of three bits mod 2, the carry bit their majority (R101). -/
def fullAdder (a b c : Bit) : Bit × Bit := (a ^^ b ^^ c, (a && b) || (a && c) || (b && c))

/-- R102's loop after `i` of its passes: the positions of S written so far and the carry. Pass `i` works on position
`7 - i`. The first pass starts with carry 0, and S starts as zero, though every position is written before S is
returned. -/
def chain (x y : Byte) : Nat → Byte × Bit
  | 0 => (0#8, false)
  | i + 1 =>
    match chain x y i with
    | (s, lastCarry) =>
      let cell := fullAdder (pos x (7 - i)) (pos y (7 - i)) lastCarry
      (setPos s (7 - i) cell.1, cell.2)

/-- `c(i)` of R102: the carry into position `7 - i`. It lives inside one addition and no output shows it (R31). -/
def carryInto (x y : Byte) (i : Nat) : Bit := (chain x y i).2

/-- `add8(X, Y)`: the sum after 8 passes. The final carry `c8` is discarded (R102, R29). -/
def add8 (x y : Byte) : Byte := (chain x y 8).1

end Sys2Proof.Machine
end

