-- ==== Sys2Proof/Config.lean ====
section
/-! DEFINITION. What a realisation fixes and the spec leaves OPEN (R7), and the values it leaves undrawn (R160).
Every constant here without a body is a free value: no proof can see what it is. -/

namespace Sys2Proof

/-- The least width of the N port (R6): 10 bits carry 256 and -129. -/
def Config.minNW : Nat := 10

/-- By how much a realisation's N port is wider than the minimum. OPEN (R6, I8): log entry 4. -/
opaque Config.extraNW : Nat

/-- The width `NW` of a realisation's N port, at least 10 (R6). -/
def Config.nw : Nat := Config.minNW + Config.extraNW

/-- How a realisation signals completion: the two ways R165 names. -/
inductive Config.Completion where
  /-- A fixed settle time. -/
  | settleTime
  /-- A handshake. -/
  | handshake
deriving DecidableEq, Repr, Inhabited

/-- The OPEN parameter `COMPLETION` (R165, I7). No definition of the model reads it: log entry 8. -/
opaque Config.completion : Config.Completion

/-- RES at power-up without a reset: any value (R160, I3). Log entry 9. -/
opaque Config.powerUpRes : Byte

/-- RTAG at power-up without a reset: any value in BYTE, UCHAR, CHAR (R160, I3). Log entry 9. -/
opaque Config.powerUpTag : Tag

/-- ERR at power-up without a reset: any value (R160, I3). Log entry 9. -/
opaque Config.powerUpErr : Err

end Sys2Proof
end

