-- ==== Sys2Proof/Syntax.lean ====
section
/-! DEFINITION. The instructions: one constructor per row of the opcode table (R68), each with the operands that R71's
notation gives it. A word that decodes to none of these is ILLEGAL (R69), which is no row and no constructor. -/

namespace Sys2Proof

/-- One decoded request: the operation of a row of R68 with the operands its ports carry. The letters of a name spell
the tags of R62: `addUS` is `ADD.US`, first operand UCHAR, second CHAR. -/
inductive Instr where
  /-- `ADD.BB A, B`, control word 0x00 (R108). -/
  | addBB (a b : Byte)
  /-- `ADD.BU A, B`, control word 0x01 (R108). -/
  | addBU (a b : Byte)
  /-- `ADD.BS A, B`, control word 0x02 (R108). -/
  | addBS (a b : Byte)
  /-- `ADD.UB A, B`, control word 0x04 (R108). -/
  | addUB (a b : Byte)
  /-- `ADD.UU A, B`, control word 0x05 (R106). -/
  | addUU (a b : Byte)
  /-- `ADD.US A, B`, control word 0x06 (R108). -/
  | addUS (a b : Byte)
  /-- `ADD.SB A, B`, control word 0x08 (R108). -/
  | addSB (a b : Byte)
  /-- `ADD.SU A, B`, control word 0x09 (R108). -/
  | addSU (a b : Byte)
  /-- `ADD.SS A, B`, control word 0x0A (R107). -/
  | addSS (a b : Byte)
  /-- `ADDA.B B`, control word 0x20 (R111). -/
  | addaB (b : Byte)
  /-- `ADDA.U B`, control word 0x21 (R109). -/
  | addaU (b : Byte)
  /-- `ADDA.S B`, control word 0x22 (R110). -/
  | addaS (b : Byte)
  /-- `ENC A`, control word 0x40 (R84). -/
  | enc (a : Byte)
  /-- `DEC.B N`, control word 0x60 (R85). -/
  | decB (n : Int)
  /-- `DEC.U N`, control word 0x64 (R86). -/
  | decU (n : Int)
  /-- `DEC.S N`, control word 0x68 (R87). -/
  | decS (n : Int)
deriving DecidableEq, Repr

end Sys2Proof
end

