-- ==== Sys2Proof/Request.lean ====
section
/-! DEFINITION. The shapes a request takes outside the block: the four ports of R60, the same ports on a physical bus of
`NW` bits (R6), and R71's request notation as a syntax tree. -/

namespace Sys2Proof

/-- One request: the control word and the three operand ports, presented together (R60). N is a mathematical integer
(R6, decision D5). -/
structure Request where
  /-- The control word CTL (R61). -/
  ctl : Ctl
  /-- Port A (R64). -/
  a : Byte
  /-- Port B (R65). -/
  b : Byte
  /-- Port N (R66). -/
  n : Int
deriving DecidableEq, Repr

/-- The same request on a physical realisation, where N is carried on a two's-complement bus of `nw` bits (R6). -/
structure BusRequest (nw : Nat) where
  /-- The control word CTL. -/
  ctl : Ctl
  /-- Port A. -/
  a : Byte
  /-- Port B. -/
  b : Byte
  /-- The `nw` lines of port N. -/
  n : BitVec nw
deriving DecidableEq, Repr

/-- A byte operand as R71 lets it be written. `WellFormed.lean` has the check of each form. -/
inductive ByteLit where
  /-- `0b` and eight binary digits, p(0) first. -/
  | bin (digits : List Bit)
  /-- `0x` and two hex digits, each given by its value. -/
  | hex (hi lo : Nat)
  /-- A decimal in [0,255]. -/
  | dec (n : Nat)
deriving DecidableEq, Repr

/-- A request as R71 writes it. -/
inductive AsmLine where
  /-- `ADD.<ta><tb> <A>, <B>`. -/
  | add (ta tb : Tag) (a b : ByteLit)
  /-- `ADDA.<tb> <B>`. -/
  | adda (tb : Tag) (b : ByteLit)
  /-- `ENC <A>`. -/
  | enc (a : ByteLit)
  /-- `DEC.<ta> <N>`. -/
  | dec (ta : Tag) (n : Int)
  /-- `.ctl 0xHH` with `A=`, `B=` and `N=`: the form for a reserved control word. -/
  | ctl (hi lo : Nat) (a b : ByteLit) (n : Int)
deriving DecidableEq, Repr

end Sys2Proof
end

