-- ==== Sys2Proof/WellFormed.lean ====
section
/-! DEFINITION. Which requests can be presented, and which written operands are well formed. The block's own meaning
needs no check: every port value is legal there (R60, R67). -/

namespace Sys2Proof

/-- `n` fits the two's-complement N bus of width `nw`; a value that does not cannot be presented (R6). -/
def presentable (nw : Nat) (n : Int) : Bool :=
  decide (-(2 ^ (nw - 1) : Int) ≤ n) && decide (n < (2 ^ (nw - 1) : Int))

/-- The instruction can be presented on an N bus of width `nw`: only DEC carries an integer (R66). -/
def Instr.wf (nw : Nat) : Instr → Bool
  | .addBB _ _ | .addBU _ _ | .addBS _ _ | .addUB _ _ | .addUU _ _ | .addUS _ _ | .addSB _ _ | .addSU _ _
  | .addSS _ _ => true
  | .addaB _ | .addaU _ | .addaS _ => true
  | .enc _ => true
  | .decB n => presentable nw n
  | .decU n => presentable nw n
  | .decS n => presentable nw n

/-- The instruction can be presented on this realisation's ports (R6, I8). -/
abbrev Instr.WellFormed (i : Instr) : Prop := i.wf Config.nw = true

/-- The request fits this width of the N bus, whichever operation it asks for. -/
def Request.wf (nw : Nat) (q : Request) : Bool := presentable nw q.n

/-- R71: eight binary digits; two hex digits; a decimal in [0,255]. -/
def ByteLit.wf : ByteLit → Bool
  | .bin digits => digits.length == 8
  | .hex hi lo => decide (hi < 16) && decide (lo < 16)
  | .dec n => decide (n ≤ 255)

/-- Every operand of the line is well formed; `<N>` may be any decimal integer (R71). -/
def AsmLine.wf : AsmLine → Bool
  | .add _ _ a b => a.wf && b.wf
  | .adda _ b => b.wf
  | .enc a => a.wf
  | .dec _ _ => true
  | .ctl hi lo a b _ => decide (hi < 16) && decide (lo < 16) && a.wf && b.wf

end Sys2Proof
end

