-- ==== Sys2Proof/Decode.lean ====
section
/-! DEFINITION. From a request to an instruction and back: the tag codes (R62), the control word's fields (R61), the
total decoder with a name for each kind of reserved word (R69, R70), the encoder (R68), the N bus (R6) and the request
notation (R71). -/

namespace Sys2Proof

/-! ### The control word's fields -/

/-- `op = CTL[7:5]` (R61). -/
def Ctl.op (w : Ctl) : BitVec 3 := w.extractLsb' 5 3

/-- `rsv = CTL[4]` (R61). -/
def Ctl.rsv (w : Ctl) : Bit := w.getLsbD 4

/-- `ta = CTL[3:2]` (R61). -/
def Ctl.ta (w : Ctl) : BitVec 2 := w.extractLsb' 2 2

/-- `tb = CTL[1:0]` (R61). -/
def Ctl.tb (w : Ctl) : BitVec 2 := w.extractLsb' 0 2

/-- The word with these fields and `rsv = 0` (R61); `{x, y}` puts `x` in the more significant bits (R10). -/
def Ctl.ofFields (op : BitVec 3) (ta tb : BitVec 2) : Ctl := op ++ 0#1 ++ ta ++ tb

/-- The 2-bit code of a tag, in `ta`, `tb` and RTAG alike (R62). -/
def Tag.code : Tag → BitVec 2
  | .byte => 0b00
  | .uchar => 0b01
  | .char => 0b10

/-- The tag a 2-bit field names; `11` names none (R62). -/
def Tag.ofCode (c : BitVec 2) : Option Tag :=
  if c = 0b00 then some .byte
  else if c = 0b01 then some .uchar
  else if c = 0b10 then some .char
  else none

/-! ### The decoder -/

/-- Why a control word is ILLEGAL: R70's four kinds, named in the order R69 tests them. -/
inductive Illegal where
  /-- `rsv = 1`. -/
  | reservedBit
  /-- `op` in `100` to `111`. -/
  | reservedOp
  /-- A tag of `11`. -/
  | reservedTag
  /-- A nonzero tag in a field the operation requires to be `00`. -/
  | nonzeroTag
deriving DecidableEq, Repr

/-- What R69's decoder answers for a word that is not ILLEGAL. -/
inductive Op where
  /-- `ADD(ta, tb)`. -/
  | add (ta tb : Tag)
  /-- `ADDA(tb)`. -/
  | adda (tb : Tag)
  /-- `ENC`. -/
  | enc
  /-- `DEC(ta)`. -/
  | dec (ta : Tag)
deriving DecidableEq, Repr

/-- R69's tests after the tag test, the tags already read: `op` picks the operation and the unused tag must be `00`. -/
def decodeOp (op : BitVec 3) (ta tb : Tag) : Except Illegal Op :=
  if op = 0b000 then .ok (.add ta tb)
  else if op = 0b001 then if ta = .byte then .ok (.adda tb) else .error .nonzeroTag
  else if op = 0b010 then if ta = .byte ∧ tb = .byte then .ok .enc else .error .nonzeroTag
  else if tb = .byte then .ok (.dec ta) else .error .nonzeroTag

/-- The decoder, a total function on all 256 control words (R69). -/
def decodeCtl (w : Ctl) : Except Illegal Op :=
  if w.rsv then .error .reservedBit
  else if 0b100#3 ≤ w.op then .error .reservedOp
  else
    match Tag.ofCode w.ta, Tag.ofCode w.tb with
    | some ta, some tb => decodeOp w.op ta tb
    | _, _ => .error .reservedTag

/-- The instruction of an operation, its operands taken from the ports it names (R64 to R66, R68). -/
def Op.instr (o : Op) (q : Request) : Instr :=
  match o with
  | .add .byte .byte => .addBB q.a q.b
  | .add .byte .uchar => .addBU q.a q.b
  | .add .byte .char => .addBS q.a q.b
  | .add .uchar .byte => .addUB q.a q.b
  | .add .uchar .uchar => .addUU q.a q.b
  | .add .uchar .char => .addUS q.a q.b
  | .add .char .byte => .addSB q.a q.b
  | .add .char .uchar => .addSU q.a q.b
  | .add .char .char => .addSS q.a q.b
  | .adda .byte => .addaB q.b
  | .adda .uchar => .addaU q.b
  | .adda .char => .addaS q.b
  | .enc => .enc q.a
  | .dec .byte => .decB q.n
  | .dec .uchar => .decU q.n
  | .dec .char => .decS q.n

/-- A request read as an instruction, or the reason its control word is ILLEGAL (R69, R138: decoding reads CTL only). -/
def decode (q : Request) : Except Illegal Instr :=
  match decodeCtl q.ctl with
  | .error e => .error e
  | .ok o => .ok (o.instr q)

/-- Which operation an instruction is. -/
def Instr.op : Instr → Op
  | .addBB _ _ => .add .byte .byte
  | .addBU _ _ => .add .byte .uchar
  | .addBS _ _ => .add .byte .char
  | .addUB _ _ => .add .uchar .byte
  | .addUU _ _ => .add .uchar .uchar
  | .addUS _ _ => .add .uchar .char
  | .addSB _ _ => .add .char .byte
  | .addSU _ _ => .add .char .uchar
  | .addSS _ _ => .add .char .char
  | .addaB _ => .adda .byte
  | .addaU _ => .adda .uchar
  | .addaS _ => .adda .char
  | .enc _ => .enc
  | .decB _ => .dec .byte
  | .decU _ => .dec .uchar
  | .decS _ => .dec .char

/-- ADD and ENC use port A; ADDA and DEC ignore it (R64). -/
def Op.usesA : Op → Bool
  | .add _ _ | .enc => true
  | .adda _ | .dec _ => false

/-- ADD and ADDA use port B; ENC and DEC ignore it (R65). -/
def Op.usesB : Op → Bool
  | .add _ _ | .adda _ => true
  | .enc | .dec _ => false

/-- Only DEC uses port N (R66). -/
def Op.usesN : Op → Bool
  | .dec _ => true
  | .add _ _ | .adda _ | .enc => false

/-! ### The encoder and the opcode table -/

/-- The rows of R68: each control word that decodes to an operation, with its mnemonic. -/
def opcodeTable : List (Ctl × String) :=
  [ (0x00, "ADD.BB"), (0x01, "ADD.BU"), (0x02, "ADD.BS"),
    (0x04, "ADD.UB"), (0x05, "ADD.UU"), (0x06, "ADD.US"),
    (0x08, "ADD.SB"), (0x09, "ADD.SU"), (0x0A, "ADD.SS"),
    (0x20, "ADDA.B"), (0x21, "ADDA.U"), (0x22, "ADDA.S"),
    (0x40, "ENC"),
    (0x60, "DEC.B"), (0x64, "DEC.U"), (0x68, "DEC.S") ]

/-- The instruction's mnemonic (R68). -/
def Instr.mnemonic : Instr → String
  | .addBB _ _ => "ADD.BB"
  | .addBU _ _ => "ADD.BU"
  | .addBS _ _ => "ADD.BS"
  | .addUB _ _ => "ADD.UB"
  | .addUU _ _ => "ADD.UU"
  | .addUS _ _ => "ADD.US"
  | .addSB _ _ => "ADD.SB"
  | .addSU _ _ => "ADD.SU"
  | .addSS _ _ => "ADD.SS"
  | .addaB _ => "ADDA.B"
  | .addaU _ => "ADDA.U"
  | .addaS _ => "ADDA.S"
  | .enc _ => "ENC"
  | .decB _ => "DEC.B"
  | .decU _ => "DEC.U"
  | .decS _ => "DEC.S"

/-- The request that presents an instruction: its control word in R68's table, its operands on their ports, and zero on
every port it does not name (R71). -/
def encode : Instr → Request
  | .addBB a b => { ctl := 0x00, a := a, b := b, n := 0 }
  | .addBU a b => { ctl := 0x01, a := a, b := b, n := 0 }
  | .addBS a b => { ctl := 0x02, a := a, b := b, n := 0 }
  | .addUB a b => { ctl := 0x04, a := a, b := b, n := 0 }
  | .addUU a b => { ctl := 0x05, a := a, b := b, n := 0 }
  | .addUS a b => { ctl := 0x06, a := a, b := b, n := 0 }
  | .addSB a b => { ctl := 0x08, a := a, b := b, n := 0 }
  | .addSU a b => { ctl := 0x09, a := a, b := b, n := 0 }
  | .addSS a b => { ctl := 0x0A, a := a, b := b, n := 0 }
  | .addaB b => { ctl := 0x20, a := 0, b := b, n := 0 }
  | .addaU b => { ctl := 0x21, a := 0, b := b, n := 0 }
  | .addaS b => { ctl := 0x22, a := 0, b := b, n := 0 }
  | .enc a => { ctl := 0x40, a := a, b := 0, n := 0 }
  | .decB n => { ctl := 0x60, a := 0, b := 0, n := n }
  | .decU n => { ctl := 0x64, a := 0, b := 0, n := n }
  | .decS n => { ctl := 0x68, a := 0, b := 0, n := n }

/-! ### The N bus of a realisation (R6) -/

/-- The request's lines on an N bus of width `nw`. Of an N that does not fit, which R6 says cannot be presented, this total
function takes the low `nw` bits, so the lines read back as another integer. DESIGN CHOICE: the spec gives such an N no
lines; log entry 18. -/
def Request.toBus (nw : Nat) (q : Request) : BusRequest nw :=
  { ctl := q.ctl, a := q.a, b := q.b, n := BitVec.ofInt nw q.n }

/-- The request a realisation reads off its lines: N is two's complement (R6). -/
def BusRequest.toRequest {nw : Nat} (q : BusRequest nw) : Request :=
  { ctl := q.ctl, a := q.a, b := q.b, n := q.n.toInt }

/-- The lines that present an instruction whose N fits; of any other N the low `nw` bits, as in `Request.toBus` (log
entry 18). -/
def encodeBus (nw : Nat) (i : Instr) : BusRequest nw := (encode i).toBus nw

/-- The instruction on a realisation's lines. -/
def decodeBus {nw : Nat} (q : BusRequest nw) : Except Illegal Instr := decode q.toRequest

/-! ### The request notation (R71) -/

/-- The byte a written operand names: the one whose integer view is the number written, or whose positions are the
digits listed p(0) first (R71). -/
def ByteLit.toByte : ByteLit → Byte
  | .bin digits => Machine.ofPositions fun i => digits.getD i false
  | .hex hi lo => Machine.byte (16 * hi + lo)
  | .dec n => Machine.byte n

/-- The request a line stands for: the control word put together from R61's fields, and zero on the ports the line does
not name (R71). -/
def AsmLine.toRequest : AsmLine → Request
  | .add ta tb a b => { ctl := Ctl.ofFields 0b000 ta.code tb.code, a := a.toByte, b := b.toByte, n := 0 }
  | .adda tb b => { ctl := Ctl.ofFields 0b001 0b00 tb.code, a := 0, b := b.toByte, n := 0 }
  | .enc a => { ctl := Ctl.ofFields 0b010 0b00 0b00, a := a.toByte, b := 0, n := 0 }
  | .dec ta n => { ctl := Ctl.ofFields 0b011 ta.code 0b00, a := 0, b := 0, n := n }
  | .ctl hi lo a b n => { ctl := BitVec.ofNat 8 (16 * hi + lo), a := a.toByte, b := b.toByte, n := n }

/-! ### The opcode table's words -/

/-- The request whose control word is the low `nbits` bits of `w` and whose ports are zero: log entry 3. -/
def Request.ofTableWord (nbits w : Nat) : Request :=
  { ctl := BitVec.ofNat 8 (w % 2 ^ nbits), a := 0, b := 0, n := 0 }

/-- The instruction the decoder reads from a word of the opcode table. -/
def decodeTableWord (nbits w : Nat) : Option Instr := (decode (Request.ofTableWord nbits w)).toOption

end Sys2Proof
end

