-- ==== Sys2Proof/Machine/Flags.lean ====
section
/-! DEFINITION. The block has no condition flags (R29). What it reports is the status ERR: its codes (R130), and the two
checks that decide it, the operand type check (R105) and the range check (R83). -/

namespace Sys2Proof

/-- The 3-bit code of a status (R130). -/
def Err.code : Err → BitVec 3
  | .none => 0
  | .range => 1
  | .arity => 2
  | .type => 3
  | .unsupported => 4
  | .structural => 5
  | .illegal => 6
  | .reserved => 7

namespace Machine

/-- `addable(t1, t2) = (t1 = t2) and (t1 ∈ (UCHAR, CHAR))` (R105). BYTE is never addable. -/
def addable (t1 t2 : Tag) : Bool := t1 == t2 && (t1 == .uchar || t1 == .char)

/-- The construction domain of a tag, as its least and greatest integer (R62, R83). -/
def dom : Tag → Int × Int
  | .byte => (0, 255)
  | .uchar => (0, 255)
  | .char => (-128, 127)

/-- N lies in the domain of the tag (R83). N is compared whole, never truncated first (R66). -/
def inDom (t : Tag) (n : Int) : Bool := decide ((dom t).1 ≤ n) && decide (n ≤ (dom t).2)

end Machine

end Sys2Proof
end

