-- ==== Sys2Proof/Machine/State.lean ====
section
/-! DEFINITION. The machine's state: the block's three registers (R22 to R24) and what its one host has still to do
(R20, R48); the reset state (R32, R160), the power-up state without a reset (R160), and the reasons a step stops. -/

namespace Sys2Proof.Machine

/-- One thing the host does to the block. The spec's two actions are a request and a reset; the last three are the
host's breaches of duty for which R53, R161 and R165 give no step: log entry 7. -/
inductive HostAction where
  /-- One request, presented alone and left to complete (R20, R60). -/
  | request (q : Request)
  /-- Reset, a host action and no request (R160). -/
  | reset
  /-- Two requests at once, or one presented while another is still being performed: outside the contract (R53). -/
  | overlap (q q' : Request)
  /-- A request presented during reset: outside the contract (R161). -/
  | requestDuringReset (q : Request)
  /-- The outputs read before this request is complete: outside the contract (R165). -/
  | readDuring (q : Request)
deriving DecidableEq, Repr

/-- The block's registers, and the model's own record of what the host does next. -/
structure State where
  /-- RES, the result byte (R22). -/
  res : Byte
  /-- RTAG, the 2-bit type tag of the value in RES (R23). -/
  rtag : Tag
  /-- ERR, the 3-bit outcome of the most recent request (R24). -/
  err : Err
  /-- The host's actions still to come, the next one first (R48). The model's own field, not the spec's: log entry 1. -/
  inbox : List HostAction
deriving DecidableEq, Repr

/-- Why a step cannot be taken at all. Each is a breach of the host's duty, for which the spec says the model has no
step (I4, I5: stuck). Errors of a request are no faults: they are ERR codes (R130, R140). -/
inductive Fault where
  /-- Raised by `perform` on overlapping requests (R53). Safe: the model stops where a block might go on. -/
  | overlappingRequests
  /-- Raised by `perform` on a request presented during reset (R161). Safe: the model stops where a block might go on. -/
  | requestDuringReset
deriving DecidableEq, Repr

/-- What the model gives no meaning to. -/
inductive Refusal where
  /-- An instruction whose meaning is not written, by its mnemonic. Raised by no arm of this model. Safe. -/
  | notModelled (mnemonic : String)
  /-- Raised by `step` when the host does nothing: the block never starts a step by itself (R20). Safe: log entry 2. -/
  | noHostAction
  /-- Raised by `perform` when the outputs are read before completion: there is no intermediate state to read (R165,
  I6). Safe: the model stops. -/
  | readBeforeCompletion
deriving DecidableEq, Repr

/-- What a meaning or a step answers. -/
abbrev Result := Host.Outcome State Fault Refusal

/-- The state right after reset: RES = 0x00, RTAG = UCHAR, ERR = NONE (R32, R160); the host has done nothing yet. -/
def State.reset : State := { res := 0x00, rtag := .uchar, err := .none, inbox := [] }

/-- A block that was never reset, with these host actions to come: every register a free draw (R160, I3). -/
def State.powerUp (actions : List HostAction) : State :=
  { res := Config.powerUpRes, rtag := Config.powerUpTag, err := Config.powerUpErr, inbox := actions }

end Sys2Proof.Machine
end

