-- ==== Sys2Proof/Machine/Ops.lean ====
section
/-! DEFINITION. The shared operations: the two ways a request ends (R45, R131, R132), the checked forms of them that
DEC and ADDA use (R83, R105), reset (R160), taking the host's next action (R48), and the outputs (R25 to R27).
There is no return from an error beside `raise`: the block has no trap and nothing to return from (R140, R141). -/

namespace Sys2Proof.Machine

/-- A request that succeeds: RES, RTAG and ERR are written together, RES whole (R45, R132). -/
def complete (d : Byte) (t : Tag) (s : State) : State := { s with res := d, rtag := t, err := .none }

/-- `raise E`: ERR takes the error's code and nothing else changes (R131). This is all an error does: no control
transfer, no saved state, no vector (R140). -/
def raise (e : Err) (s : State) : State := { s with err := e }

/-- The range check of a DEC, then its write of byte `d` (R83, R133). -/
def completeInDom (t : Tag) (n : Int) (d : Byte) (s : State) : State :=
  if inDom t n then complete d t s else raise .range s

/-- The type check of an ADDA against RTAG, then `RES <- add8(RES, B)`, the whole value replaced in one step (R105,
R50, R134). -/
def accumulate (t : Tag) (b : Byte) (s : State) : State :=
  if addable s.rtag t then complete (add8 s.res b) t s else raise .unsupported s

/-- Reset: every register takes its reset value (R160, R32). The host's later actions still stand. -/
def resetBlock (s : State) : State :=
  { s with res := State.reset.res, rtag := State.reset.rtag, err := State.reset.err }

/-- The host's next action, and the state without it: actions take effect one at a time, in the order the host
performs them (R48). -/
def takeAction (s : State) : Option (HostAction × State) :=
  match s.inbox with
  | [] => none
  | a :: rest => some (a, { s with inbox := rest })

/-- The output RVAL: `val(RES)`, unsigned whatever RTAG holds (R25, decision D14). -/
def State.rval (s : State) : Nat := val s.res

/-- The outputs Q0..Q7: `Qi = RES.p(i)` (R26). -/
def State.q (s : State) (i : Fin 8) : Bit := pos s.res i

/-- RTAG as the 2 bits the host reads (R23, R27). -/
def State.rtagBits (s : State) : BitVec 2 := s.rtag.code

/-- ERR as the 3 bits the host reads (R24, R27). -/
def State.errBits (s : State) : BitVec 3 := s.err.code

end Sys2Proof.Machine
end

