-- ==== Sys2Proof/Machine/Addition.lean ====
section
/-! DEFINITION. The addition family: ADD.UU and ADD.SS (R106, R107), the seven ADD forms whose operands are not addable
(R108), and ADDA (R109 to R111). -/

namespace Sys2Proof.Machine

/-- ADD.BB raises UNSUPPORTED, its operands not read: ByteUnit has no addition (R108). -/
def execAddBB (_a _b : Byte) (s : State) : Result := .next (raise .unsupported s)

/-- ADD.BU raises UNSUPPORTED, its operands not read (R108). -/
def execAddBU (_a _b : Byte) (s : State) : Result := .next (raise .unsupported s)

/-- ADD.BS raises UNSUPPORTED, its operands not read (R108). -/
def execAddBS (_a _b : Byte) (s : State) : Result := .next (raise .unsupported s)

/-- ADD.UB raises UNSUPPORTED, its operands not read (R108). -/
def execAddUB (_a _b : Byte) (s : State) : Result := .next (raise .unsupported s)

/-- ADD.UU: `RES <- add8(A, B)`, `RTAG <- UCHAR`, `ERR <- NONE` (R106). -/
def execAddUU (a b : Byte) (s : State) : Result := .next (complete (add8 a b) .uchar s)

/-- ADD.US raises UNSUPPORTED, its operands not read (R108). -/
def execAddUS (_a _b : Byte) (s : State) : Result := .next (raise .unsupported s)

/-- ADD.SB raises UNSUPPORTED, its operands not read (R108). -/
def execAddSB (_a _b : Byte) (s : State) : Result := .next (raise .unsupported s)

/-- ADD.SU raises UNSUPPORTED, its operands not read (R108). -/
def execAddSU (_a _b : Byte) (s : State) : Result := .next (raise .unsupported s)

/-- ADD.SS: `RES <- add8(A, B)`, `RTAG <- CHAR`, `ERR <- NONE`; no range check of the sum (R107, R104). -/
def execAddSS (a b : Byte) (s : State) : Result := .next (complete (add8 a b) .char s)

/-- ADDA.B raises UNSUPPORTED whatever RTAG holds, its operands not read (R111). -/
def execAddaB (_b : Byte) (s : State) : Result := .next (raise .unsupported s)

/-- ADDA.U: `RES <- add8(RES, B)` if RTAG is UCHAR, else UNSUPPORTED (R109). -/
def execAddaU (b : Byte) (s : State) : Result := .next (accumulate .uchar b s)

/-- ADDA.S: `RES <- add8(RES, B)` if RTAG is CHAR, else UNSUPPORTED (R110). -/
def execAddaS (b : Byte) (s : State) : Result := .next (accumulate .char b s)

end Sys2Proof.Machine
end

