-- ==== Sys2Proof/Machine/Conversion.lean ====
section
/-! DEFINITION. The conversion family: ENC (R84), DEC.B (R85), DEC.U (R86) and DEC.S (R87). -/

namespace Sys2Proof.Machine

/-- ENC: `RES <- A`, all 8 positions at once, `RTAG <- BYTE`, `ERR <- NONE` (R84). RVAL then shows `val(A)`. -/
def execEnc (a : Byte) (s : State) : Result := .next (complete a .byte s)

/-- DEC.B: RANGE unless N is in [0,255], else `RES <- byte(N)`, `RTAG <- BYTE` (R85). -/
def execDecB (n : Int) (s : State) : Result := .next (completeInDom .byte n (byte n.toNat) s)

/-- DEC.U: RANGE unless N is in [0,255], else `RES <- byte(N)`, `RTAG <- UCHAR` (R86). -/
def execDecU (n : Int) (s : State) : Result := .next (completeInDom .uchar n (byte n.toNat) s)

/-- DEC.S: RANGE unless N is in [-128,127], else `RES <- byte(N mod 256)`, `RTAG <- CHAR` (R87). The remainder is the
non-negative one (R11). PRESUMED by the spec itself (K1, decision D15): log entry 11. -/
def execDecS (n : Int) (s : State) : Result := .next (completeInDom .char n (byte (n % 256).toNat) s)

end Sys2Proof.Machine
end

