-- ==== Sys2Proof/Machine/Dispatch.lean ====
section
/-! DEFINITION. One arm per instruction. -/

namespace Sys2Proof.Machine

/-- What an instruction does to the state. -/
def exec (i : Instr) (s : State) : Host.Outcome State Fault Refusal :=
  match i with
  | .addBB a b => Sys2Proof.Machine.execAddBB a b s
  | .addBU a b => Sys2Proof.Machine.execAddBU a b s
  | .addBS a b => Sys2Proof.Machine.execAddBS a b s
  | .addUB a b => Sys2Proof.Machine.execAddUB a b s
  | .addUU a b => Sys2Proof.Machine.execAddUU a b s
  | .addUS a b => Sys2Proof.Machine.execAddUS a b s
  | .addSB a b => Sys2Proof.Machine.execAddSB a b s
  | .addSU a b => Sys2Proof.Machine.execAddSU a b s
  | .addSS a b => Sys2Proof.Machine.execAddSS a b s
  | .addaB b => Sys2Proof.Machine.execAddaB b s
  | .addaU b => Sys2Proof.Machine.execAddaU b s
  | .addaS b => Sys2Proof.Machine.execAddaS b s
  | .enc a => Sys2Proof.Machine.execEnc a s
  | .decB n => Sys2Proof.Machine.execDecB n s
  | .decU n => Sys2Proof.Machine.execDecU n s
  | .decS n => Sys2Proof.Machine.execDecS n s

end Sys2Proof.Machine
end

