-- ==== Sys2Proof/Machine/Present.lean ====
section
/-! DEFINITION. What each action of the host does: a request is decoded first (R138), an ILLEGAL word raises ILLEGAL
(R70, R135), and a breach of the host's duty has no step (R53, R161, R165). -/

namespace Sys2Proof.Machine

/-- One request, performed whole in one step (R14, R45): decode, then the instruction's meaning (R138). -/
def present (q : Request) (s : State) : Result :=
  match decode q with
  | .error _ => .next (raise .illegal s)
  | .ok i => exec i s

/-- One action of the host. -/
def perform (a : HostAction) (s : State) : Result :=
  match a with
  | .request q => present q s
  | .reset => .next (resetBlock s)
  | .overlap _ _ => .fault .overlappingRequests
  | .requestDuringReset _ => .fault .requestDuringReset
  | .readDuring _ => .refused .readBeforeCompletion

end Sys2Proof.Machine
end

