-- ==== Sys2Proof/Machine/Step.lean ====
section
/-! DEFINITION. One step: one action of the host (R14, R20). -/

namespace Sys2Proof.Machine

/-- The block never starts a step by itself: each step is triggered by one action of the host (R20). -/
def step (s : State) : Host.Outcome State Fault Refusal :=
  match takeAction s with
  | none => .refused .noHostAction
  | some (a, s') => perform a s'

/-- `s` with the request of this opcode-table word as the host's next action, ahead of those already there, so that the
very next step performs it. The block fetches nothing: the host presents every request (R21, R43). Log entry 3. -/
def State.withFetchWord (s : State) (nbits w : Nat) : State :=
  { s with inbox := .request (Request.ofTableWord nbits w) :: s.inbox }

end Sys2Proof.Machine
end

