-- ==== Sys2Proof/Safety.lean ====
section
/-! DEFINITION. What claims about runs are stated in: the host's duty, the statuses that can be reached, the ports two
requests must agree on, and the block seen as integer arithmetic. -/

namespace Sys2Proof.Machine

/-- An action the contract allows: a request by itself, or a reset (R27, R53, R161, R165). -/
def HostAction.dutiful : HostAction → Bool
  | .request _ | .reset => true
  | .overlap _ _ | .requestDuringReset _ | .readDuring _ => false

/-- Every action the host still has to perform is within the contract. -/
def State.Dutiful (s : State) : Prop := ∀ a ∈ s.inbox, a.dutiful = true

/-- The four statuses a request can leave; a model in which another appears is in error (R136, I10). -/
def errReachable (e : Err) : Prop := e = .none ∨ e = .range ∨ e = .unsupported ∨ e = .illegal

/-- The state invariant: ERR holds a status some request can leave (R130, R136), and the host keeps its duty. -/
structure State.Inv (s : State) : Prop where
  err_reachable : errReachable s.err
  dutiful : s.Dutiful

/-- Two requests with one control word that agree on every port its operation uses (R64 to R67). -/
structure SameUsedPorts (o : Op) (q q' : Request) : Prop where
  ctl : q'.ctl = q.ctl
  a : o.usesA = true → q'.a = q.a
  b : o.usesB = true → q'.b = q.b
  n : o.usesN = true → q'.n = q.n

/-- What the host reads off the state (R14), as numbers and names: no positions, no carries. -/
structure View where
  /-- RVAL. -/
  rval : Nat
  /-- RTAG. -/
  rtag : Tag
  /-- ERR. -/
  err : Err
deriving DecidableEq, Repr

/-- The outputs of a state. -/
def State.view (s : State) : View := { rval := s.rval, rtag := s.rtag, err := s.err }

/-- One request as integer arithmetic on the outputs: R84 to R87 by R88's laws, R106 to R111 by R103's law, and the
errors of R133 to R135. RVAL after a DEC.S of negative N is PRESUMED by the spec itself (K1, decision D15): log entry 11. -/
def View.request (q : Request) (v : View) : View :=
  match decodeCtl q.ctl with
  | .error _ => { v with err := .illegal }
  | .ok (.add ta tb) =>
    if addable ta tb then { rval := (val q.a + val q.b) % 256, rtag := ta, err := .none }
    else { v with err := .unsupported }
  | .ok (.adda tb) =>
    if addable v.rtag tb then { rval := (v.rval + val q.b) % 256, rtag := tb, err := .none }
    else { v with err := .unsupported }
  | .ok .enc => { rval := val q.a, rtag := .byte, err := .none }
  | .ok (.dec t) =>
    if inDom t q.n then { rval := (q.n % 256).toNat, rtag := t, err := .none }
    else { v with err := .range }

/-- One dutiful action of the host on the outputs. -/
def View.act (v : View) : HostAction → View
  | .request q => v.request q
  | .reset => { rval := 0, rtag := .uchar, err := .none }
  | .overlap _ _ | .requestDuringReset _ | .readDuring _ => v

end Sys2Proof.Machine
end

