-- ==== Sys2Proof/Certificates/Slice0/Obligations.lean ====
section
/-! DEFINITION. What is claimed of the model. `s.inbox = .request q :: rest` says that the host's next action presents
request `q`; `exec` is an instruction's own meaning and `step` a whole step. -/

open Sys2Proof Sys2Proof.Machine

/-! ### Registers, outputs and reset -/

/-- R32 (the spec's own decision D11): the values after reset. -/
def Obligations.ResetLeavesTheseValues : Prop :=
  State.reset.res = 0x00 ∧ (∀ i, State.reset.q i = false) ∧ State.reset.rtagBits = 0b01 ∧
    State.reset.errBits = 0 ∧ State.reset.rval = 0

/-- R160: reset is an action of the host that sets every register to its reset value, from every state, a block that was
never reset among them. The later actions stay: the model's choice, log entry 1. -/
def Obligations.ResetActionRestoresEveryRegister : Prop :=
  ∀ (s : State) (rest : List HostAction), s.inbox = .reset :: rest →
    step s = .next { State.reset with inbox := rest }

/-- R25, R26: each output is a function of RES alone; RVAL is the weighted sum of Q0..Q7 and never signed. -/
def Obligations.OutputsShowRes : Prop :=
  ∀ s : State, (∀ i, s.q i = pos s.res i) ∧
    (∀ t e, ({ s with rtag := t, err := e } : State).rval = s.rval) ∧
    s.rval = 128 * (s.q 0).toNat + 64 * (s.q 1).toNat + 32 * (s.q 2).toNat + 16 * (s.q 3).toNat
      + 8 * (s.q 4).toNat + 4 * (s.q 5).toNat + 2 * (s.q 6).toNat + (s.q 7).toNat

/-- R62, R130: the codes of the tags and of the statuses, each code naming at most one, and the tag code `11` none. -/
def Obligations.CodesOfTagsAndStatuses : Prop :=
  (Tag.code .byte = 0b00 ∧ Tag.code .uchar = 0b01 ∧ Tag.code .char = 0b10) ∧
    (∀ t, Tag.ofCode t.code = some t) ∧ Tag.ofCode 0b11 = none ∧
    (Err.code .none = 0 ∧ Err.code .range = 1 ∧ Err.code .arity = 2 ∧ Err.code .type = 3 ∧
      Err.code .unsupported = 4 ∧ Err.code .structural = 5 ∧ Err.code .illegal = 6 ∧ Err.code .reserved = 7)

/-! ### Steps, decoding and encoding -/

/-- R14, R20, R138: when the request the host presents decodes, the step is that instruction's meaning, the request
taken off the host's list. -/
def Obligations.StepRunsDecodedRequest : Prop :=
  ∀ (s : State) (q : Request) (rest : List HostAction) (i : Instr), s.inbox = .request q :: rest →
    decode q = .ok i → step s = exec i { s with inbox := rest }

/-- The word of an opcode-table row, placed by `withFetchWord`, is what the very next step runs (log entry 3). -/
def Obligations.PlacedTableWordRuns : Prop :=
  ∀ (s : State) (w : Nat) (i : Instr), decodeTableWord 8 w = some i → step (s.withFetchWord 8 w) = exec i s

/-- R69, R70, R135: a control word is ILLEGAL exactly for one of R70's four reasons, and a request with such a word
raises ILLEGAL, code 6: ERR changes and nothing else, whatever the ports carry and whatever RTAG holds (R138). -/
def Obligations.ReservedWordsRaiseIllegal : Prop :=
  (∀ w : Ctl, (∃ e, decodeCtl w = .error e) ↔
      w.rsv = true ∨ 4 ≤ w.op.toNat ∨ w.ta = 0b11 ∨ w.tb = 0b11 ∨ (w.op = 0b001 ∧ w.ta ≠ 0b00) ∨
        (w.op = 0b010 ∧ (w.ta ≠ 0b00 ∨ w.tb ≠ 0b00)) ∨ (w.op = 0b011 ∧ w.tb ≠ 0b00)) ∧
    ∀ (s : State) (q : Request) (rest : List HostAction) (e : Illegal), s.inbox = .request q :: rest →
      decodeCtl q.ctl = .error e →
      step s = .next { res := s.res, rtag := s.rtag, err := .illegal, inbox := rest } ∧ Err.code .illegal = 6

/-- R68, R69: a request decodes exactly when its control word stands in the table, to an instruction of that row's
mnemonic; the table has 16 rows, no word twice. -/
def Obligations.ExactlySixteenWordsDecode : Prop :=
  opcodeTable.length = 16 ∧ (opcodeTable.map (·.1)).Nodup ∧
    (∀ q : Request, (∃ i, decode q = .ok i) ↔ q.ctl ∈ opcodeTable.map (·.1)) ∧
    ∀ (q : Request) (i : Instr), decode q = .ok i → (q.ctl, i.mnemonic) ∈ opcodeTable

/-- R68: one word of each family, and one reserved word, written out bit by bit as `op rsv ta tb`. -/
def Obligations.WrittenOutWordsDecode : Prop :=
  decode { ctl := 0b00000101, a := 0x0F, b := 0x01, n := 0 } = .ok (.addUU 0x0F 0x01) ∧
    decode { ctl := 0b00000110, a := 0x01, b := 0x02, n := 0 } = .ok (.addUS 0x01 0x02) ∧
    decode { ctl := 0b00100010, a := 0x00, b := 0x01, n := 0 } = .ok (.addaS 0x01) ∧
    decode { ctl := 0b01000000, a := 0x50, b := 0x00, n := 0 } = .ok (.enc 0x50) ∧
    decode { ctl := 0b01101000, a := 0x00, b := 0x00, n := -1 } = .ok (.decS (-1)) ∧
    decode { ctl := 0b00010101, a := 0xFF, b := 0x01, n := 0 } = .error .reservedBit

/-- R60, R68, R6: every instruction comes back from its request, and from the lines of any realisation whose N bus has
at least 10 bits and carries its operand. -/
def Obligations.DecodeOfEncodeIsTheInstruction : Prop :=
  (∀ i : Instr, decode (encode i) = .ok i) ∧
    ∀ (nw : Nat) (i : Instr), Config.minNW ≤ nw → i.wf nw = true → decodeBus (encodeBus nw i) = .ok i

/-- R64 to R68: the request of a decoded instruction has the control word it came from, the same value on every port the
operation uses, and zero on the others (R71). -/
def Obligations.EncodeOfDecodeKeepsTheUsedPorts : Prop :=
  ∀ (q : Request) (i : Instr), decode q = .ok i →
    (encode i).ctl = q.ctl ∧ (encode i).a = (if i.op.usesA then q.a else 0) ∧
      (encode i).b = (if i.op.usesB then q.b else 0) ∧ (encode i).n = (if i.op.usesN then q.n else 0)

/-- R72: mnemonics and control words stand for each other, one to one. -/
def Obligations.OneWordPerMnemonic : Prop :=
  ∀ i j : Instr, i.mnemonic = j.mnemonic ↔ (encode i).ctl = (encode j).ctl

/-- R6: 10 bits carry the smallest out-of-range values on each side and 9 do not; what fits a bus is read back whole. It
says nothing of an N that does not fit, which cannot be presented (log entry 18). -/
def Obligations.NBusCarriesWhatFits : Prop :=
  (∀ nw, Config.minNW ≤ nw → presentable nw 256 = true ∧ presentable nw (-129) = true) ∧
    presentable 9 256 = false ∧ Config.minNW ≤ Config.nw ∧
    ∀ (nw : Nat) (q : Request), Config.minNW ≤ nw → q.wf nw = true → (q.toBus nw).toRequest = q

/-- R71: a well-formed byte operand names the byte with those digits, or with that integer view; each line stands for the
request that presents its instruction, and a `.ctl` line for the request of exactly the word and ports it writes. -/
def Obligations.WrittenRequestsStandForTheirPorts : Prop :=
  (∀ ds i, (ByteLit.bin ds).wf = true → i < 8 → ds[i]? = some (pos (ByteLit.bin ds).toByte i)) ∧
    (∀ hi lo, (ByteLit.hex hi lo).wf = true → val (ByteLit.hex hi lo).toByte = 16 * hi + lo) ∧
    (∀ n, (ByteLit.dec n).wf = true → val (ByteLit.dec n).toByte = n) ∧
    (∀ ta tb a b, (AsmLine.add ta tb a b).toRequest =
      encode ((Op.add ta tb).instr { ctl := 0, a := a.toByte, b := b.toByte, n := 0 })) ∧
    (∀ tb b, (AsmLine.adda tb b).toRequest =
      encode ((Op.adda tb).instr { ctl := 0, a := 0, b := b.toByte, n := 0 })) ∧
    (∀ a, (AsmLine.enc a).toRequest = encode (.enc a.toByte)) ∧
    (∀ ta n, (AsmLine.dec ta n).toRequest = encode ((Op.dec ta).instr { ctl := 0, a := 0, b := 0, n := n })) ∧
    ∀ hi lo a b n, (AsmLine.ctl hi lo a b n).wf = true →
      ∃ w : Ctl, w.toNat = 16 * hi + lo ∧
        (AsmLine.ctl hi lo a b n).toRequest = { ctl := w, a := a.toByte, b := b.toByte, n := n }

/-! ### The converters and the adder -/

/-- R81: the integer view, written out, and its range. -/
def Obligations.ValIsTheWeightedSum : Prop :=
  ∀ d : Byte, val d = 128 * (pos d 0).toNat + 64 * (pos d 1).toNat + 32 * (pos d 2).toNat + 16 * (pos d 3).toNat
      + 8 * (pos d 4).toNat + 4 * (pos d 5).toNat + 2 * (pos d 6).toNat + (pos d 7).toNat ∧ val d ≤ 255

/-- R82, R10: `byte` on [0,255] by positions, inverse to `val` both ways; position `i` is bit `7-i` of the integer. -/
def Obligations.ConvertersAreInverse : Prop :=
  (∀ n i, n ≤ 255 → i < 8 → (pos (byte n) i).toNat = n / 2 ^ (7 - i) % 2) ∧
    (∀ n, n ≤ 255 → val (byte n) = n) ∧ (∀ d : Byte, byte (val d) = d) ∧
    ∀ (d : Byte) (i : Nat), i < 8 → pos d i = (val d).testBit (7 - i)

/-- R101: the cell's two formulas, and `a + b + c = s + 2*c'` for every row of its truth table. -/
def Obligations.FullAdderCell : Prop :=
  ∀ a b c : Bit, fullAdder a b c = ((a ^^ b ^^ c), (a && b) || (a && c) || (b && c)) ∧
    ((fullAdder a b c).2 = true ↔ 2 ≤ a.toNat + b.toNat + c.toNat) ∧
    a.toNat + b.toNat + c.toNat = (fullAdder a b c).1.toNat + 2 * (fullAdder a b c).2.toNat

/-- R102: carry 0 goes into `p(7)`, each position's carry goes into the next, and `S.p(7-i)` is the sum of its two bits
and its carry. -/
def Obligations.CarryChainPositions : Prop :=
  ∀ x y : Byte, carryInto x y 0 = false ∧ ∀ i, i < 8 →
    carryInto x y (i + 1) = (fullAdder (pos x (7 - i)) (pos y (7 - i)) (carryInto x y i)).2 ∧
      pos (add8 x y) (7 - i) = (pos x (7 - i) ^^ pos y (7 - i) ^^ carryInto x y i)

/-- R103: the sum mod 256; the discarded carry is 1 exactly when the sum passes 255. -/
def Obligations.AdderWrapsModulo256 : Prop :=
  ∀ x y : Byte, val (add8 x y) = (val x + val y) % 256 ∧ (carryInto x y 8 = true ↔ 255 < val x + val y)

/-- R113: the laws of the adder. -/
def Obligations.AdderIsACommutativeGroup : Prop :=
  (∀ x y, add8 x y = add8 y x) ∧ (∀ x y z, add8 (add8 x y) z = add8 x (add8 y z)) ∧ (∀ x, add8 x 0x00 = x) ∧
    (∀ x, add8 x (byte ((256 - val x) % 256)) = 0x00) ∧ ∀ x, add8 x x = byte (2 * val x % 256)

/-- R104: on the patterns DEC.S writes, the sum is the pattern of the signed sum mod 256. A law of `add8` and `byte`: that
DEC.S writes these patterns for negative N is the spec's own presumption (K1, decision D15; log entry 11). -/
def Obligations.AdderAddsSignedPatterns : Prop :=
  ∀ m n : Int, -128 ≤ m → m ≤ 127 → -128 ≤ n → n ≤ 127 →
    add8 (byte (m % 256).toNat) (byte (n % 256).toNat) = byte ((m + n) % 256).toNat

/-! ### The conversion family: what each request leaves, every register named -/

/-- R84 (decision D18): ENC completes from every state; `0x40` is its only word. -/
def Obligations.EncLoadsItsBits : Prop :=
  (∀ q : Request, q.ctl = 0x40 → decode q = .ok (.enc q.a)) ∧
    (∀ w : Ctl, w.op = 0b010 → w ≠ 0x40 → ∃ e, decodeCtl w = .error e) ∧
    (∀ (a : Byte) (s : State), ∃ t, exec (.enc a) s = .next t ∧
      t = { res := a, rtag := .byte, err := .none, inbox := s.inbox } ∧ t.rval = val a) ∧
    val 0b00000000 = 0 ∧ val 0b11111111 = 255 ∧ val 0b10000000 = 128 ∧ val 0b01010000 = 80

/-- R85: DEC.B completes on [0,255], RVAL then N, and raises RANGE outside. -/
def Obligations.DecBLoadsOrRaisesRange : Prop :=
  (∀ q : Request, q.ctl = 0x60 → decode q = .ok (.decB q.n)) ∧
    (∀ (n : Int) (s : State), 0 ≤ n → n ≤ 255 → ∃ t, exec (.decB n) s = .next t ∧
      t = { res := byte n.toNat, rtag := .byte, err := .none, inbox := s.inbox } ∧ (t.rval : Int) = n) ∧
    ∀ (n : Int) (s : State), (n < 0 ∨ 255 < n) →
      exec (.decB n) s = .next { res := s.res, rtag := s.rtag, err := .range, inbox := s.inbox }

/-- R86: DEC.U completes on [0,255], RVAL then N, and raises RANGE outside. -/
def Obligations.DecULoadsOrRaisesRange : Prop :=
  (∀ q : Request, q.ctl = 0x64 → decode q = .ok (.decU q.n)) ∧
    (∀ (n : Int) (s : State), 0 ≤ n → n ≤ 255 → ∃ t, exec (.decU n) s = .next t ∧
      t = { res := byte n.toNat, rtag := .uchar, err := .none, inbox := s.inbox } ∧ (t.rval : Int) = n) ∧
    ∀ (n : Int) (s : State), (n < 0 ∨ 255 < n) →
      exec (.decU n) s = .next { res := s.res, rtag := s.rtag, err := .range, inbox := s.inbox }

/-- R87, R88: DEC.S completes on [-128,127] and raises RANGE outside. That the bits are `byte(N mod 256)` is the spec's
own presumption (K1, decision D15; log entry 11). -/
def Obligations.DecSLoadsOrRaisesRange : Prop :=
  (∀ q : Request, q.ctl = 0x68 → decode q = .ok (.decS q.n)) ∧
    (∀ (n : Int) (s : State), -128 ≤ n → n ≤ 127 → ∃ t, exec (.decS n) s = .next t ∧
      t = { res := byte (n % 256).toNat, rtag := .char, err := .none, inbox := s.inbox } ∧
      (t.rval : Int) = (if 0 ≤ n then n else n + 256)) ∧
    ∀ (n : Int) (s : State), (n < -128 ∨ 127 < n) →
      exec (.decS n) s = .next { res := s.res, rtag := s.rtag, err := .range, inbox := s.inbox }

/-- R88: ENC D and then DEC.B with N = RVAL leaves RES = D, from every state. -/
def Obligations.EncThenDecBRoundTrip : Prop :=
  ∀ (s : State) (d : Byte), ∃ t u, exec (.enc d) s = .next t ∧ exec (.decB (t.rval : Int)) t = .next u ∧
    u.res = d ∧ u.rtag = .byte ∧ u.err = .none

/-! ### The addition family -/

/-- R106: ADD.UU completes from every state; its corner cases and example. -/
def Obligations.AddUUWritesTheSum : Prop :=
  (∀ q : Request, q.ctl = 0x05 → decode q = .ok (.addUU q.a q.b)) ∧
    (∀ (a b : Byte) (s : State),
      exec (.addUU a b) s = .next { res := add8 a b, rtag := .uchar, err := .none, inbox := s.inbox }) ∧
    add8 0xFF 0x01 = 0x00 ∧ (∀ i, i < 8 → carryInto 0xFF 0x01 (i + 1) = true) ∧ add8 0xFF 0xFF = 0xFE ∧
    add8 0x00 0x00 = 0x00 ∧ add8 0x0F 0x01 = 0x10 ∧ val 0x10 = 16 ∧
    ∀ x : Byte, (∀ i, i < 7 → pos (add8 x x) i = pos x (i + 1)) ∧ pos (add8 x x) 7 = false ∧
      val (add8 x x) = 2 * val x % 256

/-- R107: ADD.SS completes from every state, the sum never range-checked; its corner cases and example. -/
def Obligations.AddSSWritesTheSum : Prop :=
  (∀ q : Request, q.ctl = 0x0A → decode q = .ok (.addSS q.a q.b)) ∧
    (∀ (a b : Byte) (s : State),
      exec (.addSS a b) s = .next { res := add8 a b, rtag := .char, err := .none, inbox := s.inbox }) ∧
    add8 0x7F 0x01 = 0x80 ∧ val 0x80 = 128 ∧ add8 0x80 0x80 = 0x00 ∧ add8 0xFF 0x01 = 0x00 ∧
    add8 0xFF 0xFF = 0xFE ∧ val 0xFE = 254

/-- R108 (decision D17): the seven ADD forms whose operands are not addable raise UNSUPPORTED, code 4, from every state
and on every operand; ERR changes and nothing else. -/
def Obligations.UnaddableFormsRaiseUnsupported : Prop :=
  (∀ q : Request,
      (q.ctl = 0x00 → decode q = .ok (.addBB q.a q.b)) ∧ (q.ctl = 0x01 → decode q = .ok (.addBU q.a q.b)) ∧
      (q.ctl = 0x02 → decode q = .ok (.addBS q.a q.b)) ∧ (q.ctl = 0x04 → decode q = .ok (.addUB q.a q.b)) ∧
      (q.ctl = 0x06 → decode q = .ok (.addUS q.a q.b)) ∧ (q.ctl = 0x08 → decode q = .ok (.addSB q.a q.b)) ∧
      (q.ctl = 0x09 → decode q = .ok (.addSU q.a q.b))) ∧
    (∀ (a b : Byte) (s : State),
      let t : State := { res := s.res, rtag := s.rtag, err := .unsupported, inbox := s.inbox }
      exec (.addBB a b) s = .next t ∧ exec (.addBU a b) s = .next t ∧ exec (.addBS a b) s = .next t ∧
      exec (.addUB a b) s = .next t ∧ exec (.addUS a b) s = .next t ∧ exec (.addSB a b) s = .next t ∧
      exec (.addSU a b) s = .next t) ∧
    Err.code .unsupported = 4

/-- R109 (decision D16): ADDA.U completes when RTAG is UCHAR and raises UNSUPPORTED otherwise; B = 0 leaves RES. -/
def Obligations.AddaUAddsInPlace : Prop :=
  (∀ q : Request, q.ctl = 0x21 → decode q = .ok (.addaU q.b)) ∧
    (∀ (b : Byte) (s : State), s.rtag = .uchar →
      exec (.addaU b) s = .next { res := add8 s.res b, rtag := .uchar, err := .none, inbox := s.inbox }) ∧
    (∀ (b : Byte) (s : State), s.rtag ≠ .uchar →
      exec (.addaU b) s = .next { res := s.res, rtag := s.rtag, err := .unsupported, inbox := s.inbox }) ∧
    State.reset.rtag = .uchar ∧ add8 0xFF 0x01 = 0x00 ∧ add8 (byte 80) 0x30 = 0x80 ∧ ∀ x, add8 x 0x00 = x

/-- R110 (decision D16): ADDA.S completes when RTAG is CHAR and raises UNSUPPORTED otherwise, so straight after reset. -/
def Obligations.AddaSAddsInPlace : Prop :=
  (∀ q : Request, q.ctl = 0x22 → decode q = .ok (.addaS q.b)) ∧
    (∀ (b : Byte) (s : State), s.rtag = .char →
      exec (.addaS b) s = .next { res := add8 s.res b, rtag := .char, err := .none, inbox := s.inbox }) ∧
    (∀ (b : Byte) (s : State), s.rtag ≠ .char →
      exec (.addaS b) s = .next { res := s.res, rtag := s.rtag, err := .unsupported, inbox := s.inbox }) ∧
    State.reset.rtag ≠ .char ∧ add8 0xFF 0x01 = 0x00 ∧ add8 0x7F 0x01 = 0x80 ∧ add8 0x80 0xFF = 0x7F

/-- R111 (decision D17): ADDA.B raises UNSUPPORTED whatever RTAG holds and whatever B carries. -/
def Obligations.AddaBRaisesUnsupported : Prop :=
  (∀ q : Request, q.ctl = 0x20 → decode q = .ok (.addaB q.b)) ∧
    ∀ (b : Byte) (s : State),
      exec (.addaB b) s = .next { res := s.res, rtag := s.rtag, err := .unsupported, inbox := s.inbox }

/-- R105 (decision D17): `addable`, and the one rule it makes of all nine ADD words and all three ADDA words. -/
def Obligations.AdditionFollowsTheTypeCheck : Prop :=
  (∀ t1 t2 : Tag, addable t1 t2 = true ↔ t1 = t2 ∧ (t1 = .uchar ∨ t1 = .char)) ∧
    (∀ (s : State) (q : Request) (rest : List HostAction) (ta tb : Tag), s.inbox = .request q :: rest →
      decodeCtl q.ctl = .ok (.add ta tb) →
      step s = .next
        (if addable ta tb then { res := add8 q.a q.b, rtag := ta, err := .none, inbox := rest }
         else { res := s.res, rtag := s.rtag, err := .unsupported, inbox := rest })) ∧
    ∀ (s : State) (q : Request) (rest : List HostAction) (tb : Tag), s.inbox = .request q :: rest →
      decodeCtl q.ctl = .ok (.adda tb) →
      step s = .next
        (if addable s.rtag tb then { res := add8 s.res q.b, rtag := s.rtag, err := .none, inbox := rest }
         else { res := s.res, rtag := s.rtag, err := .unsupported, inbox := rest })

/-! ### Rules of the whole machine -/

/-- R46, R131, R45: an instruction, and a request with any control word, always completes; neither touches the host's
list; and where one reports an error, RES and RTAG stand exactly as they were. -/
def Obligations.FailedRequestKeepsTheResult : Prop :=
  (∀ (i : Instr) (s : State), ∃ t, exec i s = .next t ∧ t.inbox = s.inbox ∧
    (t.err ≠ .none → t.res = s.res ∧ t.rtag = s.rtag)) ∧
    ∀ (q : Request) (s : State), ∃ t, present q s = .next t ∧ t.inbox = s.inbox ∧
      (t.err ≠ .none → t.res = s.res ∧ t.rtag = s.rtag)

/-- R133, R134, R135, R132: after a request, ERR is RANGE exactly for a DEC out of its domain, UNSUPPORTED exactly for
an addition that is not addable, ILLEGAL exactly for a reserved word, and NONE otherwise. -/
def Obligations.ErrTellsTheCause : Prop :=
  ∀ (s s' : State) (q : Request) (rest : List HostAction), s.inbox = .request q :: rest → step s = .next s' →
    (s'.err = .range ↔
      ∃ t, decodeCtl q.ctl = .ok (.dec t) ∧ (q.n < (dom t).1 ∨ (dom t).2 < q.n)) ∧
    (s'.err = .unsupported ↔
      (∃ ta tb, decodeCtl q.ctl = .ok (.add ta tb) ∧ addable ta tb = false) ∨
        ∃ tb, decodeCtl q.ctl = .ok (.adda tb) ∧ addable s.rtag tb = false) ∧
    (s'.err = .illegal ↔ ∃ e, decodeCtl q.ctl = .error e) ∧
    (s'.err = .none ↔ s'.err ≠ .range ∧ s'.err ≠ .unsupported ∧ s'.err ≠ .illegal) ∧
    dom .byte = (0, 255) ∧ dom .uchar = (0, 255) ∧ dom .char = (-128, 127)

/-- R136: after every step, from every state, ERR is none of 2, 3, 5 and 7, and RTAG is not `11` (R23). -/
def Obligations.UnreachableCodesNeverAppear : Prop :=
  ∀ s s' : State, step s = .next s' →
    s'.errBits ≠ 2 ∧ s'.errBits ≠ 3 ∧ s'.errBits ≠ 5 ∧ s'.errBits ≠ 7 ∧ s'.rtagBits ≠ 0b11

/-- R23, R22: RTAG after a request that succeeds: BYTE after ENC, the target of a DEC, the operands' tag after an ADD,
and what it was after an ADDA. -/
def Obligations.SuccessWritesTheOperationsTag : Prop :=
  ∀ (s s' : State) (q : Request) (rest : List HostAction) (o : Op), s.inbox = .request q :: rest →
    decodeCtl q.ctl = .ok o → step s = .next s' → s'.err = .none →
    match o with
    | .enc => s'.rtag = .byte
    | .dec t => s'.rtag = t
    | .add ta tb => s'.rtag = ta ∧ s'.rtag = tb
    | .adda tb => s'.rtag = s.rtag ∧ s'.rtag = tb

/-- R67, R135: two requests with one control word that agree on the ports its operation uses have the same step; for a
reserved word, any two with that word. -/
def Obligations.UnusedPortsHaveNoEffect : Prop :=
  (∀ (s : State) (q q' : Request) (rest : List HostAction) (o : Op), decodeCtl q.ctl = .ok o →
      SameUsedPorts o q q' →
      step { s with inbox := .request q' :: rest } = step { s with inbox := .request q :: rest }) ∧
    ∀ (s : State) (q q' : Request) (rest : List HostAction) (e : Illegal), decodeCtl q.ctl = .error e →
      q'.ctl = q.ctl → step { s with inbox := .request q' :: rest } = step { s with inbox := .request q :: rest }

/-- R141, R24, R132: no step reads ERR; whatever it held, a dutiful action completes and overwrites it. -/
def Obligations.EarlierErrorHasNoEffect : Prop :=
  ∀ (s : State) (e : Err) (a : HostAction) (rest : List HostAction), s.inbox = a :: rest → a.dutiful = true →
    ∃ t, step s = .next t ∧ step { s with err := e } = .next t

/-- R22, R23: RES and RTAG are read by ADDA alone: any other request that succeeds leaves the same state from any two
states, and reports the same status. -/
def Obligations.OnlyAddaReadsTheResult : Prop :=
  ∀ (s u s' u' : State) (q : Request) (rest : List HostAction), s.inbox = .request q :: rest →
    u.inbox = .request q :: rest → (∀ tb, decodeCtl q.ctl ≠ .ok (.adda tb)) →
    step s = .next s' → step u = .next u' → s'.err = u'.err ∧ (s'.err = .none → s' = u')

/-- R20, R53, R161, R165: where the host does nothing, or breaks its duty, there is no step. The faults and refusals are
the model's own names for that (log entries 2 and 7). -/
def Obligations.NoStepOutsideTheContract : Prop :=
  ∀ s : State, (s.inbox = [] → step s = .refused .noHostAction) ∧
    (∀ q q' rest, s.inbox = .overlap q q' :: rest → step s = .fault .overlappingRequests) ∧
    (∀ q rest, s.inbox = .requestDuringReset q :: rest → step s = .fault .requestDuringReset) ∧
    ∀ q rest, s.inbox = .readDuring q :: rest → step s = .refused .readBeforeCompletion

/-- The invariant holds at reset: ERR is NONE (R32, R160), and the host keeps its duty because its list of actions is
empty. That list and its reset value are the model's own choice, not the spec's (log entry 1). -/
def Obligations.InvariantHoldsAtReset : Prop := State.Inv State.reset

/-- R130, R136: every step keeps the invariant: ERR is a status a request can leave, and what the host has still to do is
within the contract. The second half speaks only of the model's own list of host actions (log entry 1) and of the
breaches of R53, R161 and R165 that the model lets the host write down (log entry 7). -/
def Obligations.EveryStepKeepsTheInvariant : Prop :=
  ∀ s s' : State, State.Inv s → step s = .next s' → State.Inv s'

/-- R14, R48, R163: any list of requests and resets, from any state, runs to its end in one step each, and what the host
then reads (R25) is the integer arithmetic of the list in the order presented: R84 and R88 for the conversions, R103 for
the sums, R23 for the tags, R105 and R131 to R135 for the checks and ERR, R160 for a reset. That RVAL is `N mod 256` after
a DEC.S of negative N is the spec's own presumption (K1, decision D15; log entry 11, PRESUMED). That a step removes the
list's first action and that a reset keeps the rest are the model's choice (log entry 1). -/
def Obligations.RunsRefineIntegerArithmetic : Prop :=
  ∀ s : State, s.Dutiful → ∃ t, Host.Core.run core s.inbox.length s = .next t ∧ t.inbox = [] ∧
    t.view = s.inbox.foldl View.act s.view
end

