-- ==== Sys2Proof/Laws/Bytes.lean ====
section
/-! SUPPORT. Positions, `val` and `byte` in terms of bit vectors: each definition's own lemma, cited instead of unfolding
it. -/

namespace Sys2Proof.Machine

/-- A position read as a bit of the integer view's numbering. -/
theorem pos_eq_getLsbD {d : Byte} {i : Nat} (h : i < 8) : pos d i = d.getLsbD (7 - i) := by
  simp [pos, BitVec.getMsbD, h]

/-- Two bytes with the same 8 positions are the same byte. -/
theorem byte_ext {d e : Byte} (h : ∀ i, i < 8 → pos d i = pos e i) : d = e := by
  apply BitVec.eq_of_getMsbD_eq
  intro i hi
  exact h i hi

/-- Writing one position writes it and no other. -/
theorem pos_setPos {d : Byte} {k i : Nat} {b : Bit} (hk : k < 8) (hi : i < 8) :
    pos (setPos d k b) i = if i = k then b else pos d i := by
  rw [pos_eq_getLsbD hi, pos_eq_getLsbD hi]
  have hlt : 7 - i < 8 := by omega
  have key : ((1#8 : BitVec 8) <<< (7 - k)).getLsbD (7 - i) = decide (i = k) := by
    rw [BitVec.getLsbD_shiftLeft]
    by_cases h : i = k
    · subst h; simp [hlt]
    · have hne : ¬ (7 - i - (7 - k) = 0 ∧ ¬ (7 - i < 7 - k)) := by omega
      rw [BitVec.getLsbD_one]
      simp only [h, decide_false]
      by_cases h2 : 7 - i < 7 - k
      · simp [h2]
      · have : 7 - i - (7 - k) ≠ 0 := by omega
        simp [this]
  cases b <;> simp only [setPos, Bool.false_eq_true, if_false, if_true, BitVec.getLsbD_and, BitVec.getLsbD_or,
    BitVec.getLsbD_not, key, hlt, decide_true, Bool.true_and] <;> by_cases h : i = k <;> simp [h]

/-- `ofPositions f` has the position values of `f`. -/
theorem pos_ofPositions {f : Nat → Bit} {i : Nat} (hi : i < 8) : pos (ofPositions f) i = f i := by
  simp only [ofPositions, List.range_succ, List.range_zero, List.nil_append, List.foldl_append, List.foldl_cons,
    List.foldl_nil]
  rcases (by omega : i = 0 ∨ i = 1 ∨ i = 2 ∨ i = 3 ∨ i = 4 ∨ i = 5 ∨ i = 6 ∨ i = 7) with
    h | h | h | h | h | h | h | h <;> subst h <;> simp [pos_setPos]

/-- The positions of `byte n`. -/
theorem pos_byte {n i : Nat} (hi : i < 8) : pos (byte n) i = (n / 2 ^ (7 - i) % 2 == 1) := pos_ofPositions hi

/-- `byte` is the bit vector of the number. -/
theorem byte_eq_ofNat (n : Nat) : byte n = BitVec.ofNat 8 n := by
  apply byte_ext
  intro i hi
  rw [pos_byte hi, pos_eq_getLsbD hi, BitVec.getLsbD_ofNat, Nat.testBit_eq_decide_div_mod_eq]
  have : 7 - i < 8 := by omega
  simp only [this, decide_true, Bool.true_and]
  rfl

/-- `val` is the bit vector's own number. -/
theorem val_eq_toNat (d : Byte) : val d = d.toNat := by
  have h : ∀ k, k ≤ 8 → ((List.range k).map fun i => (pos d i).toNat * 2 ^ (7 - i)).sum
      = d.toNat / 2 ^ (8 - k) * 2 ^ (8 - k) := by
    intro k
    induction k with
    | zero =>
      intro _
      have h0 : d.toNat / 2 ^ (8 - 0) = 0 := Nat.div_eq_of_lt d.isLt
      rw [h0]
      rfl
    | succ k ih =>
      intro hk
      have e : 8 - k = (7 - k) + 1 := by omega
      have e' : 8 - (k + 1) = 7 - k := by omega
      rw [List.range_succ, List.map_append, List.sum_append, ih (by omega), List.map_singleton, List.sum_singleton,
        pos_eq_getLsbD (by omega), e, e', ← BitVec.testBit_toNat, Nat.testBit_eq_decide_div_mod_eq, Nat.pow_succ,
        ← Nat.div_div_eq_div_mul]
      have hm := Nat.div_add_mod (d.toNat / 2 ^ (7 - k)) 2
      have hb : (decide (d.toNat / 2 ^ (7 - k) % 2 = 1)).toNat = d.toNat / 2 ^ (7 - k) % 2 := by
        rcases Nat.mod_two_eq_zero_or_one (d.toNat / 2 ^ (7 - k)) with h0 | h0 <;> simp [h0]
      rw [hb]
      calc _ = (2 * (d.toNat / 2 ^ (7 - k) / 2) + d.toNat / 2 ^ (7 - k) % 2) * 2 ^ (7 - k) := by ring
        _ = _ := by rw [hm]
  have := h 8 (Nat.le_refl 8)
  simpa [val] using this

end Sys2Proof.Machine
end

