-- ==== Sys2Proof/Laws/Adder.lean ====
section
/-! SUPPORT. What the adder computes, said once: the carry of the chain is the bit vector's own carry, and the sum byte
is the bit vector's sum. -/

namespace Sys2Proof.Machine

/-- The cell's carry is the majority of its inputs. -/
theorem fullAdder_carry (a b c : Bit) : (fullAdder a b c).2 = Bool.atLeastTwo a b c := by
  cases a <;> cases b <;> cases c <;> rfl

/-- One pass of the chain. -/
theorem chain_succ (x y : Byte) (i : Nat) :
    chain x y (i + 1) =
      (setPos (chain x y i).1 (7 - i) (pos x (7 - i) ^^ pos y (7 - i) ^^ carryInto x y i),
        (fullAdder (pos x (7 - i)) (pos y (7 - i)) (carryInto x y i)).2) := rfl

/-- The chain's carry into position `7 - i` is the carry into bit `i` of the binary sum. -/
theorem carryInto_eq_carry (x y : Byte) : ∀ i, i ≤ 8 → carryInto x y i = BitVec.carry i x y false := by
  intro i
  induction i with
  | zero => intro _; simp [carryInto, chain]
  | succ i ih =>
    intro h
    have e : 7 - (7 - i) = i := by omega
    rw [BitVec.carry_succ, ← ih (by omega), carryInto, chain_succ]
    simp only [fullAdder_carry]
    rw [pos_eq_getLsbD (by omega), pos_eq_getLsbD (by omega), e]

/-- After `i` passes the last `i` positions hold the sum. -/
theorem pos_chain (x y : Byte) : ∀ i, i ≤ 8 → ∀ j, j < i →
    pos (chain x y i).1 (7 - j) = (pos x (7 - j) ^^ pos y (7 - j) ^^ carryInto x y j) := by
  intro i
  induction i with
  | zero => intro _ j h; omega
  | succ i ih =>
    intro h j hj
    rw [chain_succ, pos_setPos (by omega) (by omega)]
    by_cases e : j = i
    · subst e; simp
    · have : ¬ 7 - j = 7 - i := by omega
      rw [if_neg this]
      exact ih (by omega) j (by omega)

/-- Every position of the sum byte. -/
theorem pos_add8 (x y : Byte) {j : Nat} (h : j < 8) :
    pos (add8 x y) (7 - j) = (pos x (7 - j) ^^ pos y (7 - j) ^^ carryInto x y j) :=
  pos_chain x y 8 (Nat.le_refl 8) j h

/-- The adder is bit-vector addition. -/
theorem add8_eq_add (x y : Byte) : add8 x y = x + y := by
  apply byte_ext
  intro i hi
  have e : 7 - (7 - i) = i := by omega
  have h := pos_add8 x y (j := 7 - i) (by omega)
  rw [e] at h
  rw [h, pos_eq_getLsbD hi, pos_eq_getLsbD hi, pos_eq_getLsbD hi, BitVec.getLsbD_add (by omega),
    carryInto_eq_carry x y (7 - i) (by omega), Bool.xor_assoc]

end Sys2Proof.Machine
end

