-- ==== Sys2Proof/Laws/State.lean ====
section
/-! SUPPORT. The small lemmas of the state updates: one per field per update, so that no proof unfolds a record. -/

namespace Sys2Proof.Machine

@[simp] theorem complete_res (d : Byte) (t : Tag) (s : State) : (complete d t s).res = d := rfl
@[simp] theorem complete_rtag (d : Byte) (t : Tag) (s : State) : (complete d t s).rtag = t := rfl
@[simp] theorem complete_err (d : Byte) (t : Tag) (s : State) : (complete d t s).err = .none := rfl
@[simp] theorem complete_inbox (d : Byte) (t : Tag) (s : State) : (complete d t s).inbox = s.inbox := rfl

@[simp] theorem raise_res (e : Err) (s : State) : (raise e s).res = s.res := rfl
@[simp] theorem raise_rtag (e : Err) (s : State) : (raise e s).rtag = s.rtag := rfl
@[simp] theorem raise_err (e : Err) (s : State) : (raise e s).err = e := rfl
@[simp] theorem raise_inbox (e : Err) (s : State) : (raise e s).inbox = s.inbox := rfl

@[simp] theorem resetBlock_res (s : State) : (resetBlock s).res = 0#8 := rfl
@[simp] theorem resetBlock_rtag (s : State) : (resetBlock s).rtag = .uchar := rfl
@[simp] theorem resetBlock_err (s : State) : (resetBlock s).err = .none := rfl
@[simp] theorem resetBlock_inbox (s : State) : (resetBlock s).inbox = s.inbox := rfl

@[simp] theorem withFetchWord_res (s : State) (nbits w : Nat) : (s.withFetchWord nbits w).res = s.res := rfl
@[simp] theorem withFetchWord_rtag (s : State) (nbits w : Nat) : (s.withFetchWord nbits w).rtag = s.rtag := rfl
@[simp] theorem withFetchWord_err (s : State) (nbits w : Nat) : (s.withFetchWord nbits w).err = s.err := rfl
@[simp] theorem withFetchWord_inbox (s : State) (nbits w : Nat) :
    (s.withFetchWord nbits w).inbox = .request (Request.ofTableWord nbits w) :: s.inbox := rfl

/-- The two shared ends of a request depend on the inbox only by keeping it. -/
@[simp] theorem raise_raise (e e' : Err) (s : State) : raise e (raise e' s) = raise e s := rfl

theorem takeAction_nil {s : State} (h : s.inbox = []) : takeAction s = none := by
  simp [takeAction, h]

theorem takeAction_cons {s : State} {a : HostAction} {rest : List HostAction} (h : s.inbox = a :: rest) :
    takeAction s = some (a, { s with inbox := rest }) := by
  simp [takeAction, h]

end Sys2Proof.Machine
end

