-- ==== Sys2Proof/Laws/Ops.lean ====
section
/-! SUPPORT. One lemma per checked operation: everything it can do. -/

namespace Sys2Proof.Machine

/-- The type check, spelled out (R105). -/
theorem addable_iff (t t' : Tag) : addable t t' = true ↔ t = t' ∧ (t = .uchar ∨ t = .char) := by
  cases t <;> cases t' <;> decide

/-- The range check, spelled out (R83). -/
theorem inDom_iff (t : Tag) (n : Int) : inDom t n = true ↔ (dom t).1 ≤ n ∧ n ≤ (dom t).2 := by
  simp [inDom]

/-- A checked load writes all three registers, or raises RANGE and writes nothing else. -/
theorem completeInDom_cases (t : Tag) (n : Int) (d : Byte) (s : State) :
    (inDom t n = true ∧ completeInDom t n d s = complete d t s) ∨
      (inDom t n = false ∧ completeInDom t n d s = raise .range s) := by
  cases h : inDom t n <;> simp [completeInDom, h]

/-- An accumulate replaces RES by the sum, or raises UNSUPPORTED and writes nothing else. -/
theorem accumulate_cases (t : Tag) (b : Byte) (s : State) :
    (addable s.rtag t = true ∧ accumulate t b s = complete (add8 s.res b) t s) ∨
      (addable s.rtag t = false ∧ accumulate t b s = raise .unsupported s) := by
  cases h : addable s.rtag t <;> simp [accumulate, h]

end Sys2Proof.Machine
end

