-- ==== Sys2Proof/Laws/PerInstr.lean ====
section
/-! SUPPORT. Facts about every instruction as syntax, one lemma per constructor. -/

/-- The instruction's control word is the one R68's table lists under its mnemonic, R61's fields put together from its
operation give that same word, and R69's decoder reads that operation back from it. -/
def Sys2Proof.Laws.ControlWord.Statement (i : Sys2Proof.Instr) : Prop :=
  ((Sys2Proof.encode i).ctl, i.mnemonic) ∈ Sys2Proof.opcodeTable ∧
    (Sys2Proof.encode i).ctl =
      (match i.op with
        | .add ta tb => Sys2Proof.Ctl.ofFields 0b000 ta.code tb.code
        | .adda tb => Sys2Proof.Ctl.ofFields 0b001 0b00 tb.code
        | .enc => Sys2Proof.Ctl.ofFields 0b010 0b00 0b00
        | .dec ta => Sys2Proof.Ctl.ofFields 0b011 ta.code 0b00) ∧
    Sys2Proof.decodeCtl (Sys2Proof.encode i).ctl = .ok i.op

namespace Sys2Proof.Laws.ControlWord

theorem addBB (a b : Byte) : Statement (.addBB a b) :=
  ⟨by simp [opcodeTable, encode, Instr.mnemonic], rfl, (by decide : decodeCtl 0x00 = .ok (.add .byte .byte))⟩
theorem addBU (a b : Byte) : Statement (.addBU a b) :=
  ⟨by simp [opcodeTable, encode, Instr.mnemonic], rfl, (by decide : decodeCtl 0x01 = .ok (.add .byte .uchar))⟩
theorem addBS (a b : Byte) : Statement (.addBS a b) :=
  ⟨by simp [opcodeTable, encode, Instr.mnemonic], rfl, (by decide : decodeCtl 0x02 = .ok (.add .byte .char))⟩
theorem addUB (a b : Byte) : Statement (.addUB a b) :=
  ⟨by simp [opcodeTable, encode, Instr.mnemonic], rfl, (by decide : decodeCtl 0x04 = .ok (.add .uchar .byte))⟩
theorem addUU (a b : Byte) : Statement (.addUU a b) :=
  ⟨by simp [opcodeTable, encode, Instr.mnemonic], rfl, (by decide : decodeCtl 0x05 = .ok (.add .uchar .uchar))⟩
theorem addUS (a b : Byte) : Statement (.addUS a b) :=
  ⟨by simp [opcodeTable, encode, Instr.mnemonic], rfl, (by decide : decodeCtl 0x06 = .ok (.add .uchar .char))⟩
theorem addSB (a b : Byte) : Statement (.addSB a b) :=
  ⟨by simp [opcodeTable, encode, Instr.mnemonic], rfl, (by decide : decodeCtl 0x08 = .ok (.add .char .byte))⟩
theorem addSU (a b : Byte) : Statement (.addSU a b) :=
  ⟨by simp [opcodeTable, encode, Instr.mnemonic], rfl, (by decide : decodeCtl 0x09 = .ok (.add .char .uchar))⟩
theorem addSS (a b : Byte) : Statement (.addSS a b) :=
  ⟨by simp [opcodeTable, encode, Instr.mnemonic], rfl, (by decide : decodeCtl 0x0A = .ok (.add .char .char))⟩
theorem addaB (b : Byte) : Statement (.addaB b) :=
  ⟨by simp [opcodeTable, encode, Instr.mnemonic], rfl, (by decide : decodeCtl 0x20 = .ok (.adda .byte))⟩
theorem addaU (b : Byte) : Statement (.addaU b) :=
  ⟨by simp [opcodeTable, encode, Instr.mnemonic], rfl, (by decide : decodeCtl 0x21 = .ok (.adda .uchar))⟩
theorem addaS (b : Byte) : Statement (.addaS b) :=
  ⟨by simp [opcodeTable, encode, Instr.mnemonic], rfl, (by decide : decodeCtl 0x22 = .ok (.adda .char))⟩
theorem enc (a : Byte) : Statement (.enc a) :=
  ⟨by simp [opcodeTable, encode, Instr.mnemonic], rfl, (by decide : decodeCtl 0x40 = .ok (.enc))⟩
theorem decB (n : Int) : Statement (.decB n) :=
  ⟨by simp [opcodeTable, encode, Instr.mnemonic], rfl, (by decide : decodeCtl 0x60 = .ok (.dec .byte))⟩
theorem decU (n : Int) : Statement (.decU n) :=
  ⟨by simp [opcodeTable, encode, Instr.mnemonic], rfl, (by decide : decodeCtl 0x64 = .ok (.dec .uchar))⟩
theorem decS (n : Int) : Statement (.decS n) :=
  ⟨by simp [opcodeTable, encode, Instr.mnemonic], rfl, (by decide : decodeCtl 0x68 = .ok (.dec .char))⟩

end Sys2Proof.Laws.ControlWord
end

