-- ==== Sys2Proof/Laws/Step.lean ====
section
/-! SUPPORT. What a step can do, said once: an instruction ends in one of two ways, and a step is one action of the
host. -/

namespace Sys2Proof.Machine

/-- Every instruction ends in a next state: all three registers written by `complete`, or only ERR by `raise` with
RANGE or UNSUPPORTED (R45). -/
theorem exec_cases (i : Instr) (s : State) :
    (∃ d t, exec i s = .next (complete d t s)) ∨
      (∃ e, (e = .range ∨ e = .unsupported) ∧ exec i s = .next (raise e s)) := by
  cases i with
  | addBB a b => exact .inr ⟨.unsupported, .inr rfl, rfl⟩
  | addBU a b => exact .inr ⟨.unsupported, .inr rfl, rfl⟩
  | addBS a b => exact .inr ⟨.unsupported, .inr rfl, rfl⟩
  | addUB a b => exact .inr ⟨.unsupported, .inr rfl, rfl⟩
  | addUU a b => exact .inl ⟨add8 a b, .uchar, rfl⟩
  | addUS a b => exact .inr ⟨.unsupported, .inr rfl, rfl⟩
  | addSB a b => exact .inr ⟨.unsupported, .inr rfl, rfl⟩
  | addSU a b => exact .inr ⟨.unsupported, .inr rfl, rfl⟩
  | addSS a b => exact .inl ⟨add8 a b, .char, rfl⟩
  | addaB b => exact .inr ⟨.unsupported, .inr rfl, rfl⟩
  | addaU b =>
    obtain ⟨-, h⟩ | ⟨-, h⟩ := accumulate_cases .uchar b s
    · exact .inl ⟨add8 s.res b, .uchar, congrArg _ h⟩
    · exact .inr ⟨.unsupported, .inr rfl, congrArg _ h⟩
  | addaS b =>
    obtain ⟨-, h⟩ | ⟨-, h⟩ := accumulate_cases .char b s
    · exact .inl ⟨add8 s.res b, .char, congrArg _ h⟩
    · exact .inr ⟨.unsupported, .inr rfl, congrArg _ h⟩
  | enc a => exact .inl ⟨a, .byte, rfl⟩
  | decB n =>
    obtain ⟨-, h⟩ | ⟨-, h⟩ := completeInDom_cases .byte n (byte n.toNat) s
    · exact .inl ⟨byte n.toNat, .byte, congrArg _ h⟩
    · exact .inr ⟨.range, .inl rfl, congrArg _ h⟩
  | decU n =>
    obtain ⟨-, h⟩ | ⟨-, h⟩ := completeInDom_cases .uchar n (byte n.toNat) s
    · exact .inl ⟨byte n.toNat, .uchar, congrArg _ h⟩
    · exact .inr ⟨.range, .inl rfl, congrArg _ h⟩
  | decS n =>
    obtain ⟨-, h⟩ | ⟨-, h⟩ := completeInDom_cases .char n (byte (n % 256).toNat) s
    · exact .inl ⟨byte (n % 256).toNat, .char, congrArg _ h⟩
    · exact .inr ⟨.range, .inl rfl, congrArg _ h⟩

/-- A request of a reserved word only raises ILLEGAL. -/
theorem present_illegal {q : Request} {e : Illegal} (h : decodeCtl q.ctl = .error e) (s : State) :
    present q s = .next (raise .illegal s) := by
  simp [present, decode, h]

/-- A decoded request is its instruction. -/
theorem present_decoded {q : Request} {o : Op} (h : decodeCtl q.ctl = .ok o) (s : State) :
    present q s = exec (o.instr q) s := by
  simp [present, decode, h]

/-- A step with nothing to do is refused. -/
theorem step_nil {s : State} (h : s.inbox = []) : step s = .refused .noHostAction := by
  simp [step, takeAction_nil h]

/-- A step performs the host's next action on the state without it. -/
theorem step_cons {s : State} {a : HostAction} {rest : List HostAction} (h : s.inbox = a :: rest) :
    step s = perform a { s with inbox := rest } := by
  simp [step, takeAction_cons h]

/-- Everything a step that answers a next state can have done. -/
theorem step_cases {s s' : State} (h : step s = .next s') :
    (∃ q rest, s.inbox = .request q :: rest ∧ present q { s with inbox := rest } = .next s') ∨
      (∃ rest, s.inbox = .reset :: rest ∧ s' = resetBlock { s with inbox := rest }) := by
  cases hb : s.inbox with
  | nil => simp [step_nil hb] at h
  | cons a rest =>
    rw [step_cons hb] at h
    cases a with
    | request q => exact .inl ⟨q, rest, rfl, h⟩
    | reset => exact .inr ⟨rest, rfl, by simpa [perform] using h.symm⟩
    | overlap q q' => simp [perform] at h
    | requestDuringReset q => simp [perform] at h
    | readDuring q => simp [perform] at h

/-- Every request ends in a next state, in one of the two ways. -/
theorem present_cases (q : Request) (s : State) :
    (∃ d t, present q s = .next (complete d t s)) ∨
      (∃ e, (e = .range ∨ e = .unsupported ∨ e = .illegal) ∧ present q s = .next (raise e s)) := by
  cases hd : decodeCtl q.ctl with
  | error e => exact .inr ⟨.illegal, .inr (.inr rfl), present_illegal hd s⟩
  | ok o =>
    rw [present_decoded hd]
    obtain ⟨d, t, h⟩ | ⟨e, he, h⟩ := exec_cases (o.instr q) s
    · exact .inl ⟨d, t, h⟩
    · exact .inr ⟨e, he.elim .inl (fun h => .inr (.inl h)), h⟩

end Sys2Proof.Machine
end

