-- ==== Sys2Proof/Tests/Slice0.lean ====
section
/-! SUPPORT. Small checks, each on one word or one step. The expected values are the spec's own: the opcode map of R68, the
vectors of `95_test_vectors.md` (named by their ids) and the corner cases of the rules. The `witness_` theorems show
states and operands that meet the hypotheses of the statement they are named after. -/

namespace Sys2Proof.Machine

/-! ### Decoding: words written out from R68, and R70's reserved words -/

/-- A request of this word with operands that differ on each port. -/
def ask (w : Ctl) : Request := { ctl := w, a := 0x12, b := 0x34, n := 7 }

theorem test_decode_add_words :
    decode (ask 0b00000000) = .ok (.addBB 0x12 0x34) ∧ decode (ask 0b00000001) = .ok (.addBU 0x12 0x34) ∧
    decode (ask 0b00000010) = .ok (.addBS 0x12 0x34) ∧ decode (ask 0b00000100) = .ok (.addUB 0x12 0x34) ∧
    decode (ask 0b00000101) = .ok (.addUU 0x12 0x34) ∧ decode (ask 0b00000110) = .ok (.addUS 0x12 0x34) ∧
    decode (ask 0b00001000) = .ok (.addSB 0x12 0x34) ∧ decode (ask 0b00001001) = .ok (.addSU 0x12 0x34) ∧
    decode (ask 0b00001010) = .ok (.addSS 0x12 0x34) := by decide

theorem test_decode_adda_words :
    decode (ask 0b00100000) = .ok (.addaB 0x34) ∧ decode (ask 0b00100001) = .ok (.addaU 0x34) ∧
    decode (ask 0b00100010) = .ok (.addaS 0x34) := by decide

theorem test_decode_conversion_words :
    decode (ask 0b01000000) = .ok (.enc 0x12) ∧ decode (ask 0b01100000) = .ok (.decB 7) ∧
    decode (ask 0b01100100) = .ok (.decU 7) ∧ decode (ask 0b01101000) = .ok (.decS 7) := by decide

/-- Vectors X1 to X13, each with R70's reason. -/
theorem test_decode_reserved_words :
    decode (ask 0x10) = .error .reservedBit ∧ decode (ask 0x80) = .error .reservedOp ∧
    decode (ask 0xE0) = .error .reservedOp ∧ decode (ask 0x0C) = .error .reservedTag ∧
    decode (ask 0x03) = .error .reservedTag ∧ decode (ask 0x24) = .error .nonzeroTag ∧
    decode (ask 0x23) = .error .reservedTag ∧ decode (ask 0x41) = .error .nonzeroTag ∧
    decode (ask 0x44) = .error .nonzeroTag ∧ decode (ask 0x61) = .error .nonzeroTag ∧
    decode (ask 0x6C) = .error .reservedTag ∧ decode (ask 0x15) = .error .reservedBit ∧
    decode (ask 0x70) = .error .reservedBit := by decide

theorem test_table_word : decodeTableWord 8 0x68 = some (.decS 0) ∧ decodeTableWord 8 0x10 = none := by decide

/-- The placed word is the first request after reset: ENC of port A = 0. -/
theorem test_placed_word : step (State.reset.withFetchWord 8 0x40) =
    .next { res := 0x00, rtag := .byte, err := .none, inbox := [] } := rfl

/-! ### Well-formedness: an ill-formed term for each check, which the check refuses -/

theorem test_wf_refuses_wide_n :
    (Instr.decB 512).wf 10 = false ∧ (Instr.decU 512).wf 10 = false ∧ (Instr.decS (-513)).wf 10 = false ∧
    Request.wf 10 { ctl := 0x60, a := 0, b := 0, n := -513 } = false := by decide

theorem test_wf_refuses_operands :
    (ByteLit.bin [true, false]).wf = false ∧ (ByteLit.hex 16 0).wf = false ∧ (ByteLit.hex 0 16).wf = false ∧
    (ByteLit.dec 256).wf = false := by decide

theorem test_wf_refuses_lines :
    (AsmLine.add .uchar .uchar (.dec 256) (.dec 0)).wf = false ∧
    (AsmLine.add .uchar .uchar (.dec 0) (.dec 256)).wf = false ∧ (AsmLine.adda .uchar (.dec 256)).wf = false ∧
    (AsmLine.enc (.bin [])).wf = false ∧ (AsmLine.ctl 16 0 (.dec 0) (.dec 0) 0).wf = false ∧
    (AsmLine.ctl 0 16 (.dec 0) (.dec 0) 0).wf = false ∧ (AsmLine.ctl 1 0 (.hex 16 0) (.dec 0) 0).wf = false ∧
    (AsmLine.ctl 1 0 (.dec 0) (.hex 0 16) 0).wf = false := by decide

theorem test_wf_accepts :
    (Instr.decB 256).wf 10 = true ∧ (Instr.decS (-129)).wf 10 = true ∧ (Instr.addUU 0xFF 0xFF).wf 10 = true ∧
    (AsmLine.enc (.bin [false, true, false, true, false, false, false, false])).wf = true ∧
    (AsmLine.ctl 8 0 (.hex 15 15) (.dec 255) 0).wf = true := by decide

/-- R71's three ways to write a byte, on the value 80 of `ENC 0b01010000`. -/
theorem test_written_bytes :
    (ByteLit.bin [false, true, false, true, false, false, false, false]).toByte = 0x50 ∧
    (ByteLit.hex 5 0).toByte = 0x50 ∧ (ByteLit.dec 80).toByte = 0x50 := by decide

/-- R71: `.ctl 0x70` with `A=0x12`, `B=52` and `N=1000` (the word of X13), each port where it is written. -/
theorem test_written_ctl_line : (AsmLine.ctl 7 0 (.hex 1 2) (.dec 52) 1000).toRequest =
    { ctl := 0b01110000, a := 0x12, b := 0x34, n := 1000 } := by decide

/-! ### The adder: carry strings of vectors A8, A9, A11 and A15 (carry out of p(7) first) -/

/-- The carry out of each position, in chain order. -/
def carries (x y : Byte) : List Bit := (List.range 8).map fun i => carryInto x y (i + 1)

theorem test_carry_strings :
    carries 0x64 0x9C = [false, false, true, true, true, true, true, true] ∧
    carries 0xC8 0x64 = [false, false, false, false, false, false, true, true] ∧
    carries 0x7F 0x01 = [true, true, true, true, true, true, true, false] ∧
    carries 0x50 0x30 = [false, false, false, false, true, true, true, false] := by decide

/-- Sums of vectors A3, A5, A6, A8, A9, A10 and A15. -/
theorem test_sums :
    add8 0x01 0x01 = 0x02 ∧ add8 0xAA 0x55 = 0xFF ∧ add8 0x55 0x55 = 0xAA ∧ add8 0x64 0x9C = 0x00 ∧
    add8 0xC8 0x64 = 0x2C ∧ add8 0x3C 0x3C = 0x78 ∧ add8 0x50 0x30 = 0x80 := by decide

/-- Positions run from the most significant: the Q outputs of vector C5. -/
theorem test_positions : (List.range 8).map (pos (byte 80)) =
    [false, true, false, true, false, false, false, false] := by decide

/-! ### One step each -/

/-- A block holding this value and tag, its last request an ILLEGAL one. -/
def held (d : Byte) (t : Tag) : State := { res := d, rtag := t, err := .illegal, inbox := [] }

/-- What the host reads after presenting one request: RES, RTAG, ERR. -/
def reads (s : State) (ctl : Ctl) (a b : Byte) (n : Int) : Option (Byte × Tag × Err) :=
  match step { s with inbox := [.request { ctl := ctl, a := a, b := b, n := n }] } with
  | .next t => some (t.res, t.rtag, t.err)
  | .fault _ | .refused _ => none

/-- T1 and R108. -/
theorem test_addBB : reads State.reset 0x00 0x01 0x01 0 = some (0x00, .uchar, .unsupported) := by decide
/-- T2. -/
theorem test_addBU : reads State.reset 0x01 0x01 0x01 0 = some (0x00, .uchar, .unsupported) := by decide
/-- T3. -/
theorem test_addBS : reads State.reset 0x02 0x01 0x01 0 = some (0x00, .uchar, .unsupported) := by decide
/-- T4. -/
theorem test_addUB : reads State.reset 0x04 0x01 0x01 0 = some (0x00, .uchar, .unsupported) := by decide
/-- A1, the source's S8: the wrap. -/
theorem test_addUU_wraps : reads (held 0x77 .char) 0x05 0xFF 0x01 0 = some (0x00, .uchar, .none) := by decide
/-- A4. -/
theorem test_addUU_carry : reads State.reset 0x05 0x0F 0x01 0 = some (0x10, .uchar, .none) := by decide
/-- P2, step 5. -/
theorem test_addUS : reads (held 0x80 .uchar) 0x06 0x01 0x02 0 = some (0x80, .uchar, .unsupported) := by decide
/-- T6. -/
theorem test_addSB : reads State.reset 0x08 0x01 0x01 0 = some (0x00, .uchar, .unsupported) := by decide
/-- T7. -/
theorem test_addSU : reads State.reset 0x09 0x01 0x01 0 = some (0x00, .uchar, .unsupported) := by decide
/-- A11: no range check of the sum. -/
theorem test_addSS : reads State.reset 0x0A 0x7F 0x01 0 = some (0x80, .char, .none) := by decide
/-- A14. -/
theorem test_addSS_negative : reads State.reset 0x0A 0xFF 0xFF 0 = some (0xFE, .char, .none) := by decide
/-- T12: BYTE is never addable, not even to BYTE. -/
theorem test_addaB : reads (held 0x50 .byte) 0x20 0x00 0x01 0 = some (0x50, .byte, .unsupported) := by decide
/-- P2, step 4. -/
theorem test_addaU : reads (held 0x50 .uchar) 0x21 0x00 0x30 0 = some (0x80, .uchar, .none) := by decide
/-- T15. -/
theorem test_addaU_mismatch : reads (held 0x05 .char) 0x21 0x00 0x01 0 = some (0x05, .char, .unsupported) := by decide
/-- T13. -/
theorem test_addaS : reads (held 0x80 .char) 0x22 0x00 0xFF 0 = some (0x7F, .char, .none) := by decide
/-- T9. -/
theorem test_addaS_after_reset : reads State.reset 0x22 0x00 0x01 0 = some (0x00, .uchar, .unsupported) := by decide
/-- C3: never read as signed. -/
theorem test_enc : reads State.reset 0x40 0x80 0x00 0 = some (0x80, .byte, .none) := by decide
/-- C22: the same as C5, ports A and B unused. -/
theorem test_decB : reads State.reset 0x60 0xFF 0xFF 80 = some (0x50, .byte, .none) := by decide
/-- C8: N is not wrapped. -/
theorem test_decB_range : reads State.reset 0x60 0x00 0x00 256 = some (0x00, .uchar, .range) := by decide
/-- C10. -/
theorem test_decU : reads State.reset 0x64 0x00 0x00 255 = some (0xFF, .uchar, .none) := by decide
/-- C23: a range error keeps RES and RTAG. -/
theorem test_decU_range : reads (held 0x50 .byte) 0x64 0x00 0x00 1000 = some (0x50, .byte, .range) := by decide
/-- C18. -/
theorem test_decS : reads State.reset 0x68 0x00 0x00 (-127) = some (0x81, .char, .none) := by decide
/-- C20. -/
theorem test_decS_range : reads State.reset 0x68 0x00 0x00 (-129) = some (0x00, .uchar, .range) := by decide
/-- X12 and X13: ILLEGAL comes before the type check and the range check. -/
theorem test_illegal_first :
    reads State.reset 0x15 0x01 0x01 0 = some (0x00, .uchar, .illegal) ∧
    reads State.reset 0x70 0x00 0x00 1000 = some (0x00, .uchar, .illegal) := by decide
/-- Z2, from a block that held -1. -/
theorem test_reset_action : step { held 0xFF .char with inbox := [.reset] } = .next State.reset := rfl
/-- R160: a block that was never reset is in the reset state after a reset, whatever it drew. -/
theorem test_reset_after_power_up : step (State.powerUp [.reset]) = .next State.reset := rfl
/-- C14: RVAL of a negative CHAR is unsigned. -/
theorem test_rval_unsigned : (held 0xFF .char).rval = 255 := by decide

/-! ### Witnesses: the hypotheses of each statement, met -/

theorem witness_ResetActionRestoresEveryRegister : { held 0xFF .char with inbox := [.reset] }.inbox = .reset :: [] := rfl

theorem witness_StepRunsDecodedRequest :
    { held 0x50 .byte with inbox := [.request (ask 0x05)] }.inbox = .request (ask 0x05) :: [] ∧
    decode (ask 0x05) = .ok (.addUU 0x12 0x34) := ⟨rfl, by decide⟩

theorem witness_PlacedTableWordRuns : decodeTableWord 8 0x0A = some (.addSS 0 0) := by decide

theorem witness_ReservedWordsRaiseIllegal :
    { held 0x50 .byte with inbox := [.request (ask 0x80)] }.inbox = .request (ask 0x80) :: [] ∧
    decodeCtl (ask 0x80).ctl = .error .reservedOp := ⟨rfl, by decide⟩

theorem witness_ExactlySixteenWordsDecode : decode (ask 0x68) = .ok (.decS 7) := by decide

theorem witness_DecodeOfEncodeIsTheInstruction :
    Config.minNW ≤ 10 ∧ (Instr.decS (-512)).wf 10 = true ∧ (Instr.decB 511).wf 10 = true := by decide

theorem witness_EncodeOfDecodeKeepsTheUsedPorts :
    decode (ask 0x22) = .ok (.addaS 0x34) ∧ decode (ask 0x64) = .ok (.decU 7) := by decide

theorem witness_NBusCarriesWhatFits :
    Config.minNW ≤ 10 ∧ Request.wf 10 { ctl := 0x60, a := 0, b := 0, n := 511 } = true ∧
    Request.wf 10 { ctl := 0x60, a := 0, b := 0, n := -512 } = true := by decide

theorem witness_WrittenRequestsStandForTheirPorts :
    (ByteLit.bin [true, false, false, false, false, false, false, true]).wf = true ∧
    (ByteLit.hex 15 15).wf = true ∧ (ByteLit.hex 0 0).wf = true ∧ (ByteLit.dec 255).wf = true ∧
    (AsmLine.ctl 0 0 (.dec 0) (.dec 0) 0).wf = true ∧
    (AsmLine.ctl 15 15 (.hex 15 15) (.dec 1) 1000).wf = true := by decide

theorem witness_ConvertersAreInverse : (255 ≤ 255 ∧ 7 < 8) ∧ (0 ≤ 255 ∧ 0 < 8) := by decide

theorem witness_CarryChainPositions : 0 < 8 ∧ 7 < 8 := by decide

theorem witness_AdderAddsSignedPatterns :
    ((-128 : Int) ≤ -128 ∧ (-128 : Int) ≤ 127) ∧ ((-128 : Int) ≤ 127 ∧ (127 : Int) ≤ 127) := by decide

theorem witness_EncLoadsItsBits :
    (ask 0x40).ctl = 0x40 ∧ Ctl.op 0x41 = 0b010 ∧ (0x41 : Ctl) ≠ 0x40 := by decide

theorem witness_DecBLoadsOrRaisesRange :
    (ask 0x60).ctl = 0x60 ∧ ((0 : Int) ≤ 0 ∧ (0 : Int) ≤ 255) ∧ ((0 : Int) ≤ 255 ∧ (255 : Int) ≤ 255) ∧
    ((-1 : Int) < 0 ∨ 255 < (-1 : Int)) ∧ ((256 : Int) < 0 ∨ 255 < (256 : Int)) := by decide

theorem witness_DecULoadsOrRaisesRange :
    (ask 0x64).ctl = 0x64 ∧ ((0 : Int) ≤ 0 ∧ (0 : Int) ≤ 255) ∧ ((0 : Int) ≤ 255 ∧ (255 : Int) ≤ 255) ∧
    ((-1 : Int) < 0 ∨ 255 < (-1 : Int)) ∧ ((256 : Int) < 0 ∨ 255 < (256 : Int)) := by decide

theorem witness_DecSLoadsOrRaisesRange :
    (ask 0x68).ctl = 0x68 ∧ ((-128 : Int) ≤ -128 ∧ (-128 : Int) ≤ 127) ∧ ((-128 : Int) ≤ 127 ∧ (127 : Int) ≤ 127) ∧
    ((-129 : Int) < -128 ∨ 127 < (-129 : Int)) ∧ ((128 : Int) < -128 ∨ 127 < (128 : Int)) := by decide

theorem witness_AddUUWritesTheSum : (ask 0x05).ctl = 0x05 ∧ 0 < 8 ∧ 7 < 8 ∧ 0 < 7 ∧ 6 < 7 := by decide

theorem witness_AddSSWritesTheSum : (ask 0x0A).ctl = 0x0A := by decide

theorem witness_UnaddableFormsRaiseUnsupported :
    (ask 0x00).ctl = 0x00 ∧ (ask 0x01).ctl = 0x01 ∧ (ask 0x02).ctl = 0x02 ∧ (ask 0x04).ctl = 0x04 ∧
    (ask 0x06).ctl = 0x06 ∧ (ask 0x08).ctl = 0x08 ∧ (ask 0x09).ctl = 0x09 := by decide

theorem witness_AddaUAddsInPlace :
    (ask 0x21).ctl = 0x21 ∧ (held 0xFF .uchar).rtag = .uchar ∧ (held 0x50 .byte).rtag ≠ .uchar := by decide

theorem witness_AddaSAddsInPlace :
    (ask 0x22).ctl = 0x22 ∧ (held 0x80 .char).rtag = .char ∧ State.reset.rtag ≠ .char := by decide

theorem witness_AddaBRaisesUnsupported : (ask 0x20).ctl = 0x20 := by decide

theorem witness_AdditionFollowsTheTypeCheck :
    { held 0x50 .char with inbox := [.request (ask 0x06)] }.inbox = .request (ask 0x06) :: [] ∧
    decodeCtl (ask 0x06).ctl = .ok (.add .uchar .char) ∧
    { held 0x50 .char with inbox := [.request (ask 0x22)] }.inbox = .request (ask 0x22) :: [] ∧
    decodeCtl (ask 0x22).ctl = .ok (.adda .char) := ⟨rfl, by decide, rfl, by decide⟩

/-- An instruction and a request that report an error, so that the last clauses are met. -/
theorem witness_FailedRequestKeepsTheResult :
    exec (.decB 256) (held 0x50 .byte) = .next { held 0x50 .byte with err := .range } ∧
    ({ held 0x50 .byte with err := .range } : State).err ≠ .none ∧
    present (ask 0x80) (held 0x50 .byte) = .next (held 0x50 .byte) ∧ (held 0x50 .byte).err ≠ .none :=
  ⟨rfl, by decide, rfl, by decide⟩

theorem witness_ErrTellsTheCause :
    step { held 0x50 .byte with inbox := [.request { ctl := 0x60, a := 0, b := 0, n := 256 }] } =
      .next { held 0x50 .byte with err := .range } := rfl

theorem witness_UnreachableCodesNeverAppear :
    step { res := 0x50, rtag := .byte, err := .reserved, inbox := [.request { ctl := 0x20, a := 0, b := 0, n := 0 }] } =
      .next { held 0x50 .byte with err := .unsupported } := rfl

theorem witness_SuccessWritesTheOperationsTag :
    decodeCtl 0x64 = .ok (.dec .uchar) ∧
    step { held 0x50 .byte with inbox := [.request { ctl := 0x64, a := 0, b := 0, n := 1 }] } =
      .next { res := 0x01, rtag := .uchar, err := .none, inbox := [] } := ⟨by decide, rfl⟩

/-- ADDA.U: B is used, A and N are not. -/
theorem witness_UnusedPortsHaveNoEffect :
    decodeCtl (ask 0x21).ctl = .ok (.adda .uchar) ∧
    SameUsedPorts (.adda .uchar) (ask 0x21) { ctl := 0x21, a := 0xFF, b := 0x34, n := 1000 } ∧
    decodeCtl (ask 0x10).ctl = .error .reservedBit ∧ (ask 0x10).ctl = 0x10 :=
  ⟨by decide, ⟨rfl, by decide, by decide, by decide⟩, by decide, rfl⟩

theorem witness_EarlierErrorHasNoEffect :
    { held 0x50 .byte with inbox := [.request (ask 0x21)] }.inbox = .request (ask 0x21) :: [] ∧
    (HostAction.request (ask 0x21)).dutiful = true ∧ HostAction.reset.dutiful = true := ⟨rfl, rfl, rfl⟩

theorem witness_OnlyAddaReadsTheResult :
    (∀ tb, decodeCtl 0x40 ≠ .ok (.adda tb)) ∧
    step { held 0x50 .byte with inbox := [.request { ctl := 0x40, a := 0x01, b := 0, n := 0 }] } =
      .next { res := 0x01, rtag := .byte, err := .none, inbox := [] } ∧
    step { held 0xFF .char with inbox := [.request { ctl := 0x40, a := 0x01, b := 0, n := 0 }] } =
      .next { res := 0x01, rtag := .byte, err := .none, inbox := [] } :=
  ⟨fun tb => by cases tb <;> decide, rfl, rfl⟩

theorem witness_NoStepOutsideTheContract :
    State.reset.inbox = [] ∧
    { State.reset with inbox := [.overlap (ask 0x40) (ask 0x21)] }.inbox = .overlap (ask 0x40) (ask 0x21) :: [] ∧
    { State.reset with inbox := [.requestDuringReset (ask 0x40)] }.inbox = .requestDuringReset (ask 0x40) :: [] ∧
    { State.reset with inbox := [.readDuring (ask 0x40)] }.inbox = .readDuring (ask 0x40) :: [] :=
  ⟨rfl, rfl, rfl, rfl⟩

theorem witness_EveryStepKeepsTheInvariant :
    State.Inv { held 0x50 .byte with inbox := [.request { ctl := 0x20, a := 0, b := 0, n := 0 }, .reset] } ∧
    step { held 0x50 .byte with inbox := [.request { ctl := 0x20, a := 0, b := 0, n := 0 }, .reset] } =
      .next { held 0x50 .byte with err := .unsupported, inbox := [.reset] } :=
  ⟨⟨.inr (.inr (.inr rfl)), by
    intro a h
    rcases List.mem_cons.1 h with rfl | h
    · rfl
    · rw [List.mem_singleton.1 h]; rfl⟩, rfl⟩

theorem witness_RunsRefineIntegerArithmetic :
    State.Dutiful { State.reset with inbox := [.request (ask 0x64), .reset, .request (ask 0x10)] } := by
  intro a h
  rcases List.mem_cons.1 h with rfl | h
  · rfl
  · rcases List.mem_cons.1 h with rfl | h
    · rfl
    · rw [List.mem_singleton.1 h]; rfl

end Sys2Proof.Machine
end

/-! ### The N bus (R6) -/

namespace Sys2Proof

/-- The two bounds of R6 as one proposition. -/
theorem presentable_iff (nw : Nat) (n : Int) :
    presentable nw n = true ↔ -(2 ^ (nw - 1) : Int) ≤ n ∧ n < (2 ^ (nw - 1) : Int) := by
  simp [presentable]

/-- What 10 bits carry, every wider bus carries. -/
theorem presentable_of_minNW_le {nw : Nat} {n : Int} (hw : Config.minNW ≤ nw) (hlo : -512 ≤ n) (hhi : n < 512) :
    presentable nw n = true := by
  have hpow : (2 ^ 9 : Int) ≤ 2 ^ (nw - 1) :=
    pow_le_pow_right₀ (by decide) (Nat.le_sub_one_of_lt hw)
  rw [presentable_iff]
  omega

/-- A request whose N fits the bus comes back whole from the lines. -/
theorem toRequest_toBus {nw : Nat} {q : Request} (hw : 0 < nw) (hq : q.wf nw = true) :
    (q.toBus nw).toRequest = q := by
  obtain ⟨hlo, hhi⟩ := (presentable_iff nw q.n).1 hq
  have hn : (BitVec.ofInt nw q.n).toInt = q.n := BitVec.toInt_ofInt_eq_self hw hlo hhi
  simp [Request.toBus, BusRequest.toRequest, hn]

/-- Settles O13: the library's two's-complement round trip on the range that `presentable` allows. -/
theorem nBusCarriesWhatFits : Obligations.NBusCarriesWhatFits := by
  unfold Obligations.NBusCarriesWhatFits
  refine ⟨fun nw hw => ⟨?_, ?_⟩, by decide, Nat.le_add_right _ _, fun nw q hw hq => ?_⟩
  · exact presentable_of_minNW_le hw (by decide) (by decide)
  · exact presentable_of_minNW_le hw (by decide) (by decide)
  · exact toRequest_toBus (Nat.lt_of_lt_of_le (by decide) hw) hq

end Sys2Proof

/-! ### One step of a decoded request (R14, R20, R138) -/

namespace Sys2Proof.Machine

/-- A request is presented as the instruction it decodes to. -/
theorem present_of_decode {q : Request} {i : Instr} (h : decode q = .ok i) (s : State) :
    present q s = exec i s := by
  simp [present, h]

/-- Settles O5: the step takes the request off the list, and presenting it runs what it decodes to. -/
theorem stepRunsDecodedRequest : Obligations.StepRunsDecodedRequest := by
  intro s q rest i hinbox hdecode
  calc step s = present q { s with inbox := rest } := step_cons hinbox
    _ = exec i { s with inbox := rest } := present_of_decode hdecode _

end Sys2Proof.Machine

/-! ### What each operation does, one rule per operation of R69's decoder -/

namespace Sys2Proof.Machine

/-- All nine ADD forms follow the one type check (R105 to R108). -/
theorem exec_add (ta tb : Tag) (q : Request) (s : State) :
    exec ((Op.add ta tb).instr q) s =
      .next (if addable ta tb then complete (add8 q.a q.b) ta s else raise .unsupported s) := by
  cases ta <;> cases tb <;> rfl

/-- No tag is addable to BYTE. -/
theorem addable_byte (t : Tag) : addable t .byte = false := by
  cases t <;> rfl

/-- All three ADDA forms are the checked accumulation (R109 to R111). -/
theorem exec_adda (tb : Tag) (q : Request) (s : State) :
    exec ((Op.adda tb).instr q) s = .next (accumulate tb q.b s) := by
  cases tb with
  | byte =>
    have h : accumulate .byte q.b s = raise .unsupported s := by simp [accumulate, addable_byte]
    exact congrArg _ h.symm
  | uchar => rfl
  | char => rfl

/-- In the domain [0,255] the reduction mod 256 that DEC.S makes changes nothing. -/
theorem completeInDom_byte_emod {t : Tag} (hdom : dom t = (0, 255)) (n : Int) (s : State) :
    completeInDom t n (byte n.toNat) s = completeInDom t n (byte (n % 256).toNat) s := by
  cases hn : inDom t n with
  | false => simp [completeInDom, hn]
  | true =>
    obtain ⟨hlo, hhi⟩ : 0 ≤ n ∧ n ≤ 255 := by simpa [hdom] using (inDom_iff t n).1 hn
    rw [Int.emod_eq_of_lt hlo (Int.lt_of_le_of_lt hhi (by decide))]

/-- All three DEC forms load `byte (N mod 256)` under the range check (R85 to R87). -/
theorem exec_dec (t : Tag) (q : Request) (s : State) :
    exec ((Op.dec t).instr q) s = .next (completeInDom t q.n (byte (q.n % 256).toNat) s) := by
  cases t with
  | byte => exact congrArg _ (completeInDom_byte_emod rfl q.n s)
  | uchar => exact congrArg _ (completeInDom_byte_emod rfl q.n s)
  | char => rfl

end Sys2Proof.Machine

/-! ### Runs as integer arithmetic -/

namespace Sys2Proof.Machine

/-- The integer view of the adder's byte (R103). -/
theorem val_add8 (x y : Byte) : val (add8 x y) = (val x + val y) % 256 := by
  simp only [val_eq_toNat, add8_eq_add, BitVec.toNat_add]

/-- `byte` keeps a number mod 256. -/
theorem val_byte (n : Nat) : val (byte n) = n % 256 := by
  rw [val_eq_toNat, byte_eq_ofNat, BitVec.toNat_ofNat]

/-- The byte of a remainder mod 256 shows that remainder. -/
theorem val_byte_emod (n : Int) : val (byte (n % 256).toNat) = (n % 256).toNat := by
  rw [val_byte]
  omega

/-! What the host reads after each way a request or a reset ends. -/

@[simp] theorem view_rval (s : State) : s.view.rval = val s.res := rfl
@[simp] theorem view_rtag (s : State) : s.view.rtag = s.rtag := rfl

@[simp] theorem view_complete (d : Byte) (t : Tag) (s : State) :
    (complete d t s).view = { rval := val d, rtag := t, err := .none } := rfl

@[simp] theorem view_raise (e : Err) (s : State) : (raise e s).view = { s.view with err := e } := rfl

@[simp] theorem view_resetBlock (s : State) :
    (resetBlock s).view = { rval := 0, rtag := .uchar, err := .none } := by
  simp [State.view, State.rval, val_eq_toNat]

/-- A request completes, and the host then reads the integer arithmetic of that request on what it read before. -/
theorem present_view (q : Request) (s : State) : ∃ t, present q s = .next t ∧ t.view = s.view.request q := by
  cases hd : decodeCtl q.ctl with
  | error e => exact ⟨_, present_illegal hd s, by simp [View.request, hd]⟩
  | ok o =>
    rw [present_decoded hd]
    cases o with
    | add ta tb =>
      refine ⟨_, exec_add ta tb q s, ?_⟩
      cases h : addable ta tb <;> simp [View.request, hd, h, val_add8]
    | adda tb =>
      refine ⟨_, exec_adda tb q s, ?_⟩
      obtain ⟨h, hacc⟩ | ⟨h, hacc⟩ := accumulate_cases tb q.b s <;>
        simp [View.request, hd, h, hacc, val_add8]
    | enc => exact ⟨_, rfl, by simp [View.request, hd]⟩
    | dec t =>
      refine ⟨_, exec_dec t q s, ?_⟩
      obtain ⟨h, hload⟩ | ⟨h, hload⟩ := completeInDom_cases t q.n (byte (q.n % 256).toNat) s <;>
        simp [View.request, hd, h, hload, val_byte_emod]

/-- A request leaves the host's list of actions as it was. -/
theorem present_inbox {q : Request} {s t : State} (h : present q s = .next t) : t.inbox = s.inbox := by
  obtain ⟨d, tag, hc⟩ | ⟨e, -, hr⟩ := present_cases q s
  · cases hc.symm.trans h
    rfl
  · cases hr.symm.trans h
    rfl

/-- A dutiful action completes, leaves the list as it was and acts on the outputs as integer arithmetic. -/
theorem perform_dutiful {a : HostAction} (ha : a.dutiful = true) (s : State) :
    ∃ t, perform a s = .next t ∧ t.inbox = s.inbox ∧ t.view = s.view.act a := by
  cases a with
  | request q =>
    obtain ⟨t, hpresent, hview⟩ := present_view q s
    exact ⟨t, hpresent, present_inbox hpresent, hview⟩
  | reset => exact ⟨resetBlock s, rfl, rfl, view_resetBlock s⟩
  | overlap q q' => cases ha
  | requestDuringReset q => cases ha
  | readDuring q => cases ha

/-- A run's first step, taken off. -/
theorem run_succ {s t : State} (h : step s = .next t) (k : Nat) :
    Host.Core.run core (k + 1) s = Host.Core.run core k t := by
  have hcore : core.step s = .next t := h
  simp only [Host.Core.run, hcore]

/-- The run of a dutiful list of actions, by induction on the list. -/
theorem run_dutiful (l : List HostAction) (hl : ∀ a ∈ l, a.dutiful = true) (s : State) (hs : s.inbox = l) :
    ∃ t, Host.Core.run core l.length s = .next t ∧ t.inbox = [] ∧ t.view = l.foldl View.act s.view := by
  induction l generalizing s with
  | nil => exact ⟨s, rfl, hs, rfl⟩
  | cons a rest ih =>
    obtain ⟨ha, hrest⟩ := List.forall_mem_cons.1 hl
    obtain ⟨s', hperform, hinbox, hview⟩ := perform_dutiful ha { s with inbox := rest }
    have hstep : step s = .next s' := (step_cons hs).trans hperform
    obtain ⟨t, hrun, hdone, hfold⟩ := ih hrest s' hinbox
    refine ⟨t, (run_succ hstep _).trans hrun, hdone, ?_⟩
    rw [hfold, hview, List.foldl_cons]
    rfl

/-- Settles O44: each action refines its integer arithmetic (`perform_dutiful`), so the whole list does. -/
theorem runsRefineIntegerArithmetic : Obligations.RunsRefineIntegerArithmetic := by
  intro s hduty
  exact run_dutiful s.inbox hduty s rfl

end Sys2Proof.Machine

/-! ### What a request reads and writes of the registers (R22, R23) -/

namespace Sys2Proof.Machine

/-- A step whose request decodes to an operation is that operation's instruction. -/
theorem step_of_decodeCtl {s : State} {q : Request} {rest : List HostAction} {o : Op}
    (hinbox : s.inbox = .request q :: rest) (hdecode : decodeCtl q.ctl = .ok o) :
    step s = exec (o.instr q) { s with inbox := rest } :=
  (step_cons hinbox).trans (present_decoded hdecode _)

/-- A checked load that reports no error is the load. -/
theorem completeInDom_of_err_none {t : Tag} {n : Int} {d : Byte} {s : State}
    (h : (completeInDom t n d s).err = .none) : completeInDom t n d s = complete d t s := by
  obtain ⟨-, hload⟩ | ⟨-, hraise⟩ := completeInDom_cases t n d s
  · exact hload
  · simp [hraise] at h

/-- An accumulation that reports no error passed the type check and is the addition in place. -/
theorem accumulate_of_err_none {t : Tag} {b : Byte} {s : State} (h : (accumulate t b s).err = .none) :
    addable s.rtag t = true ∧ accumulate t b s = complete (add8 s.res b) t s := by
  obtain hadd | ⟨-, hraise⟩ := accumulate_cases t b s
  · exact hadd
  · simp [hraise] at h

/-- Settles O37: with no error reported each operation ended in `complete`, whose tag is the operation's; for ADD and
ADDA the type check makes the two tags one. -/
theorem successWritesTheOperationsTag : Obligations.SuccessWritesTheOperationsTag := by
  intro s s' q rest o hinbox hdecode hstep herr
  rw [step_of_decodeCtl hinbox hdecode] at hstep
  cases o with
  | enc =>
    cases hstep
    rfl
  | dec t =>
    cases (exec_dec t q _).symm.trans hstep
    simp [completeInDom_of_err_none herr]
  | add ta tb =>
    cases (exec_add ta tb q _).symm.trans hstep
    cases hadd : addable ta tb with
    | false => simp [hadd] at herr
    | true => simpa using ((addable_iff ta tb).1 hadd).1
  | adda tb =>
    cases (exec_adda tb q _).symm.trans hstep
    obtain ⟨hadd, hsum⟩ := accumulate_of_err_none herr
    simpa [hsum] using ((addable_iff s.rtag tb).1 hadd).1.symm

/-- A request that is no ADDA ends in the same way from every state: it loads one byte and tag, or raises one error,
whatever the registers held. -/
theorem present_uniform {q : Request} (hq : ∀ tb, decodeCtl q.ctl ≠ .ok (.adda tb)) :
    (∃ d t, ∀ s, present q s = .next (complete d t s)) ∨
      ∃ e, e ≠ .none ∧ ∀ s, present q s = .next (raise e s) := by
  cases hd : decodeCtl q.ctl with
  | error e => exact .inr ⟨.illegal, by decide, present_illegal hd⟩
  | ok o =>
    simp only [present_decoded hd]
    cases o with
    | add ta tb =>
      cases h : addable ta tb with
      | true => exact .inl ⟨add8 q.a q.b, ta, fun s => by simp [exec_add, h]⟩
      | false => exact .inr ⟨.unsupported, by decide, fun s => by simp [exec_add, h]⟩
    | adda tb => exact absurd hd (hq tb)
    | enc => exact .inl ⟨q.a, .byte, fun _ => rfl⟩
    | dec t =>
      cases h : inDom t q.n with
      | true => exact .inl ⟨byte (q.n % 256).toNat, t, fun s => by simp [exec_dec, completeInDom, h]⟩
      | false => exact .inr ⟨.range, by decide, fun s => by simp [exec_dec, completeInDom, h]⟩

/-- Settles O40: the request ends in the same way from both states, and a success writes all three registers. -/
theorem onlyAddaReadsTheResult : Obligations.OnlyAddaReadsTheResult := by
  intro s u s' u' q rest hs hu hq hstep hstep'
  have hpresent : present q { s with inbox := rest } = .next s' := (step_cons hs).symm.trans hstep
  have hpresent' : present q { u with inbox := rest } = .next u' := (step_cons hu).symm.trans hstep'
  obtain ⟨d, t, hend⟩ | ⟨e, he, hend⟩ := present_uniform hq
  · cases (hend _).symm.trans hpresent
    cases (hend _).symm.trans hpresent'
    exact ⟨rfl, fun _ => rfl⟩
  · cases (hend _).symm.trans hpresent
    cases (hend _).symm.trans hpresent'
    exact ⟨rfl, fun hnone => absurd hnone he⟩

end Sys2Proof.Machine

/-! ### The outputs and the reset state (R25, R26, R32) -/

namespace Sys2Proof.Machine

/-- The integer view, its eight terms written out (R81). -/
theorem val_eq_weighted_sum (d : Byte) :
    val d = 128 * (pos d 0).toNat + 64 * (pos d 1).toNat + 32 * (pos d 2).toNat + 16 * (pos d 3).toNat
      + 8 * (pos d 4).toNat + 4 * (pos d 5).toNat + 2 * (pos d 6).toNat + (pos d 7).toNat := by
  simp only [val, List.range_succ, List.range_zero, List.nil_append, List.map_append, List.map_cons, List.map_nil,
    List.sum_append, List.sum_cons, List.sum_nil]
  omega

/-- Settles O3: the outputs read RES alone, and RVAL is the integer view of RES. -/
theorem outputsShowRes : Obligations.OutputsShowRes :=
  fun s => ⟨fun _ => rfl, fun _ _ => rfl, val_eq_weighted_sum s.res⟩

/-- Settles O1: the reset state's registers, read through the outputs. -/
theorem resetLeavesTheseValues : Obligations.ResetLeavesTheseValues :=
  ⟨rfl, by decide, rfl, rfl, val_eq_toNat 0x00⟩

/-- Settles O42: ERR is NONE at reset, and the empty list holds no breach of duty. -/
theorem invariantHoldsAtReset : Obligations.InvariantHoldsAtReset where
  err_reachable := .inl rfl
  dutiful := List.forall_mem_nil _

end Sys2Proof.Machine

/-! ### Where there is no step (R20, R53, R161, R165) -/

namespace Sys2Proof.Machine

/-- Settles O41: with no action the step is refused, and a breach of duty is performed as the stop of its own name. -/
theorem noStepOutsideTheContract : Obligations.NoStepOutsideTheContract :=
  fun _ => ⟨step_nil, fun _ _ _ => step_cons, fun _ _ => step_cons, fun _ _ => step_cons⟩

end Sys2Proof.Machine

/-! ### A request that fails keeps the result (R46) -/

namespace Sys2Proof.Machine

/-- An answer that is a `complete` or a `raise`, the error `e` being of any kind `P`, leaves the host's list alone, and
RES and RTAG too where it reports an error: only `raise` can report one, and it writes ERR alone (R131). -/
theorem keeps_result_of_complete_or_raise {r : Result} {s : State} {P : Err → Prop}
    (hend : (∃ d t, r = .next (complete d t s)) ∨ ∃ e, P e ∧ r = .next (raise e s)) :
    ∃ t, r = .next t ∧ t.inbox = s.inbox ∧ (t.err ≠ .none → t.res = s.res ∧ t.rtag = s.rtag) := by
  obtain ⟨d, tag, hcomplete⟩ | ⟨e, -, hraise⟩ := hend
  · exact ⟨complete d tag s, hcomplete, complete_inbox d tag s, fun herr => absurd (complete_err d tag s) herr⟩
  · exact ⟨raise e s, hraise, raise_inbox e s, fun _ => ⟨raise_res e s, raise_rtag e s⟩⟩

/-- Settles O34: every instruction and every request ends in `complete` or in `raise` (`exec_cases`, `present_cases`). -/
theorem failedRequestKeepsTheResult : Obligations.FailedRequestKeepsTheResult :=
  ⟨fun i s => keeps_result_of_complete_or_raise (exec_cases i s),
    fun q s => keeps_result_of_complete_or_raise (present_cases q s)⟩

end Sys2Proof.Machine

/-! ### The control word and its operation (R61, R62, R69) -/

namespace Sys2Proof

/-- A tag is read back from its code (R62). -/
@[simp] theorem Tag.ofCode_code (t : Tag) : Tag.ofCode t.code = some t := by
  cases t <;> rfl

/-- A 2-bit field is the code of a tag, or the reserved `11` (R62). -/
theorem exists_code_or_reserved (c : BitVec 2) : (∃ t : Tag, c = t.code) ∨ c = 0b11 := by
  have hcodes : ∀ c : BitVec 2, c = Tag.byte.code ∨ c = Tag.uchar.code ∨ c = Tag.char.code ∨ c = 0b11 := by decide
  obtain h | h | h | h := hcodes c
  · exact .inl ⟨.byte, h⟩
  · exact .inl ⟨.uchar, h⟩
  · exact .inl ⟨.char, h⟩
  · exact .inr h

/-- No tag has the reserved code (R62). -/
theorem Tag.code_ne_reserved (t : Tag) : t.code ≠ 3#2 := by
  cases t <;> decide

/-- BYTE alone has the code `00` (R62). -/
theorem Tag.code_eq_zero_iff (t : Tag) : t.code = 0#2 ↔ t = .byte := by
  cases t <;> decide

/-- Settles O4: the tables of codes, and `Tag.ofCode_code`. -/
theorem codesOfTagsAndStatuses : Obligations.CodesOfTagsAndStatuses :=
  ⟨⟨rfl, rfl, rfl⟩, Tag.ofCode_code, rfl, rfl, rfl, rfl, rfl, rfl, rfl, rfl, rfl⟩

/-- The control word of an operation, put together from R61's fields with `00` in each tag field it does not use. -/
def Op.word : Op → Ctl
  | .add ta tb => Ctl.ofFields 0b000 ta.code tb.code
  | .adda tb => Ctl.ofFields 0b001 0b00 tb.code
  | .enc => Ctl.ofFields 0b010 0b00 0b00
  | .dec ta => Ctl.ofFields 0b011 ta.code 0b00

/-- A word whose reserved bit is clear is made of its three other fields (R61). -/
theorem ofFields_of_rsv_false {w : Ctl} (h : w.rsv = false) : Ctl.ofFields w.op w.ta w.tb = w := by
  have hbit : w[4] = false := h
  apply BitVec.eq_of_getLsbD_eq
  intro i hi
  simp only [Ctl.ofFields, Ctl.op, Ctl.ta, Ctl.tb, BitVec.getLsbD_append, BitVec.getLsbD_extractLsb']
  interval_cases i <;> simp [hbit]

/-! R69's tests on a word whose tags are already read, one equation per `op`. -/

@[simp] theorem decodeOp_add (ta tb : Tag) : decodeOp 0#3 ta tb = .ok (.add ta tb) := rfl

@[simp] theorem decodeOp_adda (ta tb : Tag) :
    decodeOp 1#3 ta tb = if ta = .byte then .ok (.adda tb) else .error .nonzeroTag := rfl

@[simp] theorem decodeOp_enc (ta tb : Tag) :
    decodeOp 2#3 ta tb = if ta = .byte ∧ tb = .byte then .ok .enc else .error .nonzeroTag := rfl

@[simp] theorem decodeOp_dec (ta tb : Tag) :
    decodeOp 3#3 ta tb = if tb = .byte then .ok (.dec ta) else .error .nonzeroTag := rfl

/-- The four values of `op` that name an operation (R61). -/
theorem op_cases {op : BitVec 3} (h : op.toNat < 4) : op = 0#3 ∨ op = 1#3 ∨ op = 2#3 ∨ op = 3#3 := by
  bv_omega

/-- What R69's last tests accept has the word of the operation they answer. -/
theorem ofFields_of_decodeOp {op : BitVec 3} {ta tb : Tag} {o : Op} (hop : op.toNat < 4)
    (h : decodeOp op ta tb = .ok o) : Ctl.ofFields op ta.code tb.code = o.word := by
  obtain rfl | rfl | rfl | rfl := op_cases hop
  · cases h
    rfl
  · simp only [decodeOp_adda] at h
    split at h
    · next hta => subst hta; cases h; rfl
    · cases h
  · simp only [decodeOp_enc] at h
    split at h
    · next htags => obtain ⟨rfl, rfl⟩ := htags; cases h; rfl
    · cases h
  · simp only [decodeOp_dec] at h
    split at h
    · next htb => subst htb; cases h; rfl
    · cases h

/-- R69's last tests refuse a word exactly for a nonzero tag in a field that must be `00` (R70). -/
theorem decodeOp_error_iff {op : BitVec 3} (ta tb : Tag) (hop : op.toNat < 4) :
    (∃ e, decodeOp op ta tb = .error e) ↔
      (op = 1#3 ∧ ta ≠ .byte) ∨ (op = 2#3 ∧ (ta ≠ .byte ∨ tb ≠ .byte)) ∨ (op = 3#3 ∧ tb ≠ .byte) := by
  obtain rfl | rfl | rfl | rfl := op_cases hop
  · simp
  · by_cases hta : ta = .byte <;> simp [hta]
  · by_cases hta : ta = .byte <;> by_cases htb : tb = .byte <;> simp [hta, htb]
  · by_cases htb : tb = .byte <;> simp [htb]

/-- R69's decoder, said once: it refuses a word for its reserved bit, its `op` or a tag of `11`; of any other word it
reads two tags and leaves the rest to `decodeOp`. -/
theorem decodeCtl_cases (w : Ctl) :
    ((∃ e, decodeCtl w = .error e) ∧ (w.rsv = true ∨ 4 ≤ w.op.toNat ∨ w.ta = 0b11 ∨ w.tb = 0b11)) ∨
      (w.rsv = false ∧ w.op.toNat < 4 ∧
        ∃ ta tb : Tag, w.ta = ta.code ∧ w.tb = tb.code ∧ decodeCtl w = decodeOp w.op ta tb) := by
  have hle : 0b100#3 ≤ w.op ↔ 4 ≤ w.op.toNat := Iff.rfl
  cases hrsv : w.rsv with
  | true => exact .inl ⟨⟨.reservedBit, by simp [decodeCtl, hrsv]⟩, .inl rfl⟩
  | false =>
    by_cases hop : 4 ≤ w.op.toNat
    · exact .inl ⟨⟨.reservedOp, by simp [decodeCtl, hrsv, hle, hop]⟩, .inr (.inl hop)⟩
    obtain ⟨ta, hta⟩ | hta := exists_code_or_reserved w.ta
    · obtain ⟨tb, htb⟩ | htb := exists_code_or_reserved w.tb
      · exact .inr ⟨rfl, Nat.lt_of_not_le hop, ta, tb, hta, htb, by simp [decodeCtl, hrsv, hle, hop, hta, htb]⟩
      · have hnone : Tag.ofCode w.tb = none := htb ▸ rfl
        exact .inl ⟨⟨.reservedTag, by simp [decodeCtl, hrsv, hle, hop, hta, hnone]⟩, .inr (.inr (.inr htb))⟩
    · have hnone : Tag.ofCode w.ta = none := hta ▸ rfl
      exact .inl ⟨⟨.reservedTag, by simp [decodeCtl, hrsv, hle, hop, hnone]⟩, .inr (.inr (.inl hta))⟩

/-- The decoder reads an operation back from its word (R68). -/
@[simp] theorem decodeCtl_word (o : Op) : decodeCtl o.word = .ok o := by
  cases o with
  | add ta tb => cases ta <;> cases tb <;> rfl
  | adda tb => cases tb <;> rfl
  | enc => rfl
  | dec ta => cases ta <;> rfl

/-- Each operation has one control word, and only that word decodes to it (R68, R69). -/
theorem decodeCtl_eq_ok_iff (w : Ctl) (o : Op) : decodeCtl w = .ok o ↔ w = o.word := by
  refine ⟨fun h => ?_, fun h => h ▸ decodeCtl_word o⟩
  obtain ⟨⟨e, he⟩, -⟩ | ⟨hrsv, hop, ta, tb, hta, htb, hdecode⟩ := decodeCtl_cases w
  · cases he.symm.trans h
  · calc w = Ctl.ofFields w.op ta.code tb.code := by rw [← hta, ← htb, ofFields_of_rsv_false hrsv]
      _ = o.word := ofFields_of_decodeOp hop (hdecode.symm.trans h)

/-- A control word is ILLEGAL exactly for one of R70's reasons. -/
theorem decodeCtl_error_iff (w : Ctl) :
    (∃ e, decodeCtl w = .error e) ↔
      w.rsv = true ∨ 4 ≤ w.op.toNat ∨ w.ta = 0b11 ∨ w.tb = 0b11 ∨ (w.op = 0b001 ∧ w.ta ≠ 0b00) ∨
        (w.op = 0b010 ∧ (w.ta ≠ 0b00 ∨ w.tb ≠ 0b00)) ∨ (w.op = 0b011 ∧ w.tb ≠ 0b00) := by
  obtain ⟨herror, hreason⟩ | ⟨hrsv, hop, ta, tb, hta, htb, hdecode⟩ := decodeCtl_cases w
  · exact iff_of_true herror (by tauto)
  · rw [hdecode, decodeOp_error_iff ta tb hop]
    simp [hrsv, Nat.not_le_of_lt hop, hta, htb, Tag.code_ne_reserved, Tag.code_eq_zero_iff]

end Sys2Proof

/-! ### Requests and instructions (R60, R64 to R68) -/

namespace Sys2Proof

/-- A request decodes to the operation of its control word, its operands taken from the ports. -/
theorem decode_eq_ok_iff (q : Request) (i : Instr) :
    decode q = .ok i ↔ ∃ o : Op, q.ctl = o.word ∧ o.instr q = i := by
  simp only [← decodeCtl_eq_ok_iff]
  cases hdecode : decodeCtl q.ctl <;> simp [decode, hdecode]

/-- The instruction of an operation is of that operation. -/
@[simp] theorem op_instr (o : Op) (q : Request) : (o.instr q).op = o := by
  cases o with
  | add ta tb => cases ta <;> cases tb <;> rfl
  | adda tb => cases tb <;> rfl
  | enc => rfl
  | dec ta => cases ta <;> rfl

/-- The encoder puts the operands back on the ports they came from, and zero on the ports not used (R64 to R67, R71). -/
theorem encode_instr (o : Op) (q : Request) :
    encode (o.instr q) =
      { ctl := o.word
        a := if o.usesA then q.a else 0
        b := if o.usesB then q.b else 0
        n := if o.usesN then q.n else 0 } := by
  cases o with
  | add ta tb => cases ta <;> cases tb <;> rfl
  | adda tb => cases tb <;> rfl
  | enc => rfl
  | dec ta => cases ta <;> rfl

/-- Every instruction meets `Laws.ControlWord.Statement`. -/
theorem controlWord (i : Instr) : Laws.ControlWord.Statement i := by
  cases i with
  | addBB a b => exact Laws.ControlWord.addBB a b
  | addBU a b => exact Laws.ControlWord.addBU a b
  | addBS a b => exact Laws.ControlWord.addBS a b
  | addUB a b => exact Laws.ControlWord.addUB a b
  | addUU a b => exact Laws.ControlWord.addUU a b
  | addUS a b => exact Laws.ControlWord.addUS a b
  | addSB a b => exact Laws.ControlWord.addSB a b
  | addSU a b => exact Laws.ControlWord.addSU a b
  | addSS a b => exact Laws.ControlWord.addSS a b
  | addaB b => exact Laws.ControlWord.addaB b
  | addaU b => exact Laws.ControlWord.addaU b
  | addaS b => exact Laws.ControlWord.addaS b
  | enc a => exact Laws.ControlWord.enc a
  | decB n => exact Laws.ControlWord.decB n
  | decU n => exact Laws.ControlWord.decU n
  | decS n => exact Laws.ControlWord.decS n

/-- The encoder writes the word of the instruction's operation. -/
theorem encode_ctl (i : Instr) : (encode i).ctl = i.op.word := by
  obtain ⟨-, hword, -⟩ := controlWord i
  exact hword

/-- The ports of an instruction's own request hold its operands. -/
theorem instr_encode (i : Instr) : i.op.instr (encode i) = i := by
  cases i <;> rfl

/-- The request of an instruction decodes to that instruction (R60, R68). -/
theorem decode_encode (i : Instr) : decode (encode i) = .ok i :=
  (decode_eq_ok_iff _ i).2 ⟨i.op, encode_ctl i, instr_encode i⟩

/-- The request of an instruction fits the bus if the instruction does: N is its operand, or zero. -/
theorem wf_encode {nw : Nat} {i : Instr} (hw : Config.minNW ≤ nw) (hi : i.wf nw = true) : (encode i).wf nw = true := by
  have hzero : presentable nw 0 = true := presentable_of_minNW_le hw (by decide) (by decide)
  cases i with
  | decB | decU | decS => exact hi
  | _ => exact hzero

/-- Settles O10: on a bus the request comes back whole from its lines (`toRequest_toBus`), and then decodes. -/
theorem decodeOfEncodeIsTheInstruction : Obligations.DecodeOfEncodeIsTheInstruction := by
  refine ⟨decode_encode, fun nw i hw hi => ?_⟩
  have hpos : 0 < nw := Nat.lt_of_lt_of_le (by decide) hw
  calc decodeBus (encodeBus nw i) = decode (encode i) := congrArg decode (toRequest_toBus hpos (wf_encode hw hi))
    _ = .ok i := decode_encode i

/-- Settles O11: by `encode_instr` for the operation that the request's word names. -/
theorem encodeOfDecodeKeepsTheUsedPorts : Obligations.EncodeOfDecodeKeepsTheUsedPorts := by
  intro q i hdecode
  obtain ⟨o, hword, rfl⟩ := (decode_eq_ok_iff q i).1 hdecode
  simp [encode_instr, hword]

/-- Settles O9: five words written as the word of their operation, and one whose reserved bit is set. -/
theorem writtenOutWordsDecode : Obligations.WrittenOutWordsDecode :=
  ⟨(decode_eq_ok_iff _ _).2 ⟨.add .uchar .uchar, rfl, rfl⟩, (decode_eq_ok_iff _ _).2 ⟨.add .uchar .char, rfl, rfl⟩,
    (decode_eq_ok_iff _ _).2 ⟨.adda .char, rfl, rfl⟩, (decode_eq_ok_iff _ _).2 ⟨.enc, rfl, rfl⟩,
    (decode_eq_ok_iff _ _).2 ⟨.dec .char, rfl, rfl⟩, rfl⟩

end Sys2Proof

/-! ### The opcode table (R68, R72) -/

namespace Sys2Proof

/-- The instruction's row of R68's table. -/
theorem row_mem_opcodeTable (i : Instr) : ((encode i).ctl, i.mnemonic) ∈ opcodeTable :=
  (controlWord i).1

/-- No control word stands in two rows. -/
theorem opcodeTable_words_nodup : (opcodeTable.map (·.1)).Nodup := by decide

/-- No mnemonic stands in two rows (R72). -/
theorem opcodeTable_mnemonics_nodup : (opcodeTable.map (·.2)).Nodup := by decide

/-- The word of every row decodes to an operation. -/
theorem decodeCtl_of_mem_words : ∀ w ∈ opcodeTable.map (·.1), ∃ o, decodeCtl w = .ok o := by
  have hrows : ∀ w ∈ opcodeTable.map (·.1), (decodeCtl w).toOption.isSome = true := by decide
  intro w hw
  cases hdecode : decodeCtl w with
  | error e => simpa [hdecode, Except.toOption] using hrows w hw
  | ok o => exact ⟨o, rfl⟩

/-- A request that decodes stands in the row of its instruction. -/
theorem row_of_decode {q : Request} {i : Instr} (h : decode q = .ok i) : (q.ctl, i.mnemonic) ∈ opcodeTable := by
  obtain ⟨hctl, -⟩ := encodeOfDecodeKeepsTheUsedPorts q i h
  exact hctl ▸ row_mem_opcodeTable i

/-- Settles O8: a word that decodes stands in its instruction's row, and every row's word decodes. -/
theorem exactlySixteenWordsDecode : Obligations.ExactlySixteenWordsDecode := by
  refine ⟨rfl, opcodeTable_words_nodup, fun q => ⟨fun ⟨i, hi⟩ => ?_, fun hmem => ?_⟩, fun _ _ => row_of_decode⟩
  · exact List.mem_map_of_mem (f := (·.1)) (row_of_decode hi)
  · obtain ⟨o, ho⟩ := decodeCtl_of_mem_words q.ctl hmem
    exact ⟨o.instr q, (decode_eq_ok_iff q _).2 ⟨o, (decodeCtl_eq_ok_iff _ _).1 ho, rfl⟩⟩

/-- Settles O12: two rows of the table that share a word, or a mnemonic, are the same row. -/
theorem oneWordPerMnemonic : Obligations.OneWordPerMnemonic := by
  intro i j
  have hi := row_mem_opcodeTable i
  have hj := row_mem_opcodeTable j
  constructor
  · intro hname
    exact congrArg Prod.fst (List.inj_on_of_nodup_map opcodeTable_mnemonics_nodup hi hj hname)
  · intro hword
    exact congrArg Prod.snd (List.inj_on_of_nodup_map opcodeTable_words_nodup hi hj hword)

end Sys2Proof

/-! ### Written requests (R71) -/

namespace Sys2Proof

open Machine

/-- Eight digits written in binary are the positions of the byte, p(0) first. -/
theorem getElem?_bin {ds : List Bit} {i : Nat} (hwf : (ByteLit.bin ds).wf = true) (hi : i < 8) :
    ds[i]? = some (pos (ByteLit.bin ds).toByte i) := by
  have hlen : ds.length = 8 := by simpa [ByteLit.wf] using hwf
  have hlt : i < ds.length := by omega
  rw [ByteLit.toByte, pos_ofPositions hi, List.getElem?_eq_getElem hlt, List.getD_eq_getElem _ _ hlt]

/-- Two hex digits name a number of 8 bits. -/
theorem hex_lt {hi lo : Nat} (hwf : (ByteLit.hex hi lo).wf = true) : 16 * hi + lo < 256 := by
  obtain ⟨hhi, hlo⟩ : hi < 16 ∧ lo < 16 := by simpa [ByteLit.wf] using hwf
  omega

/-- Two hex digits name the byte of that integer view. -/
theorem val_hex {hi lo : Nat} (hwf : (ByteLit.hex hi lo).wf = true) :
    val (ByteLit.hex hi lo).toByte = 16 * hi + lo :=
  (val_byte _).trans (Nat.mod_eq_of_lt (hex_lt hwf))

/-- A decimal names the byte of that integer view. -/
theorem val_dec {n : Nat} (hwf : (ByteLit.dec n).wf = true) : val (ByteLit.dec n).toByte = n := by
  have hn : n ≤ 255 := by simpa [ByteLit.wf] using hwf
  exact (val_byte n).trans (Nat.mod_eq_of_lt (Nat.lt_succ_of_le hn))

/-- The two digits of a well-formed `.ctl` line are those of a well-formed byte. -/
theorem wf_hex_of_wf_ctl {hi lo : Nat} {a b : ByteLit} {n : Int} (hwf : (AsmLine.ctl hi lo a b n).wf = true) :
    (ByteLit.hex hi lo).wf = true := by
  simp only [AsmLine.wf, Bool.and_eq_true] at hwf
  obtain ⟨⟨hdigits, -⟩, -⟩ := hwf
  simpa [ByteLit.wf] using hdigits

/-- Settles O14: the operands by the positions or the integer view of their byte, each line by `encode_instr`. -/
theorem writtenRequestsStandForTheirPorts : Obligations.WrittenRequestsStandForTheirPorts := by
  refine ⟨fun ds i => getElem?_bin, fun hi lo => val_hex, fun n => val_dec, fun ta tb a b => ?_, fun tb b => ?_,
    fun a => rfl, fun ta n => ?_, fun hi lo a b n hwf => ⟨BitVec.ofNat 8 (16 * hi + lo), ?_, rfl⟩⟩
  · rw [encode_instr]
    rfl
  · rw [encode_instr]
    rfl
  · rw [encode_instr]
    rfl
  · exact Nat.mod_eq_of_lt (hex_lt (wf_hex_of_wf_ctl hwf))

end Sys2Proof

/-! ### Steps of reserved words, of table words and of requests that differ in unused ports -/

namespace Sys2Proof.Machine

/-- A step whose request has a reserved word raises ILLEGAL (R70, R135). -/
theorem step_of_reserved {s : State} {q : Request} {rest : List HostAction} {e : Illegal}
    (hinbox : s.inbox = .request q :: rest) (hdecode : decodeCtl q.ctl = .error e) :
    step s = .next (raise .illegal { s with inbox := rest }) :=
  (step_cons hinbox).trans (present_illegal hdecode _)

/-- Settles O7: R70's reasons are `decodeCtl_error_iff`, and `raise` writes ERR alone. -/
theorem reservedWordsRaiseIllegal : Obligations.ReservedWordsRaiseIllegal :=
  ⟨decodeCtl_error_iff, fun _ _ _ _ hinbox hdecode => ⟨step_of_reserved hinbox hdecode, rfl⟩⟩

/-- A table word decodes as the request that carries it. -/
theorem decode_of_decodeTableWord {nbits w : Nat} {i : Instr} (h : decodeTableWord nbits w = some i) :
    decode (Request.ofTableWord nbits w) = .ok i := by
  unfold decodeTableWord at h
  cases hdecode : decode (Request.ofTableWord nbits w) with
  | error e => simp [hdecode, Except.toOption] at h
  | ok j => simpa [hdecode, Except.toOption] using h

/-- Settles O6: the placed request is the next one taken, which leaves `s`. -/
theorem placedTableWordRuns : Obligations.PlacedTableWordRuns :=
  fun s w i h => stepRunsDecodedRequest (s.withFetchWord 8 w) _ s.inbox i rfl (decode_of_decodeTableWord h)

/-- An operation takes its operands from the ports it uses and from no other (R64 to R67). -/
theorem instr_eq_of_sameUsedPorts {o : Op} {q q' : Request} (h : SameUsedPorts o q q') : o.instr q' = o.instr q := by
  obtain ⟨-, ha, hb, hn⟩ := h
  cases o with
  | add ta tb => cases ta <;> cases tb <;> simp [Op.instr, ha rfl, hb rfl]
  | adda tb => cases tb <;> simp [Op.instr, hb rfl]
  | enc => simp [Op.instr, ha rfl]
  | dec ta => cases ta <;> simp [Op.instr, hn rfl]

/-- Settles O38: two such requests are the same instruction, or both raise ILLEGAL. -/
theorem unusedPortsHaveNoEffect : Obligations.UnusedPortsHaveNoEffect := by
  constructor
  · intro s q q' rest o hdecode hsame
    have hdecode' : decodeCtl q'.ctl = .ok o := hsame.ctl ▸ hdecode
    rw [step_of_decodeCtl rfl hdecode', step_of_decodeCtl rfl hdecode, instr_eq_of_sameUsedPorts hsame]
  · intro s q q' rest e hdecode hctl
    have hdecode' : decodeCtl q'.ctl = .error e := hctl ▸ hdecode
    rw [step_of_reserved rfl hdecode', step_of_reserved rfl hdecode]

end Sys2Proof.Machine

/-! ### The two converters (R81, R82) -/

namespace Sys2Proof.Machine

/-- The integer view of a byte is at most 255 (R81). -/
theorem val_le_255 (d : Byte) : val d ≤ 255 := by
  rw [val_eq_toNat]
  exact Nat.le_of_lt_succ d.isLt

/-- Settles O15: the eight terms of `val`, and the bound of an 8-bit number. -/
theorem valIsTheWeightedSum : Obligations.ValIsTheWeightedSum :=
  fun d => ⟨val_eq_weighted_sum d, val_le_255 d⟩

/-- An integer in [0,255] is the integer view of its byte (R82). -/
theorem val_byte_of_le {n : Nat} (h : n ≤ 255) : val (byte n) = n :=
  (val_byte n).trans (Nat.mod_eq_of_lt (Nat.lt_succ_of_le h))

/-- A byte is the byte of its integer view (R82). -/
theorem byte_val (d : Byte) : byte (val d) = d := by
  rw [val_eq_toNat, byte_eq_ofNat, BitVec.ofNat_toNat, BitVec.setWidth_eq]

/-- Position `i` is bit `7-i` of the integer view (R10). -/
theorem pos_eq_testBit_val (d : Byte) {i : Nat} (hi : i < 8) : pos d i = (val d).testBit (7 - i) := by
  rw [pos_eq_getLsbD hi, val_eq_toNat, BitVec.testBit_toNat]

/-- Settles O16: the positions of `byte n` are bits of its integer view, which is `n` again. -/
theorem convertersAreInverse : Obligations.ConvertersAreInverse := by
  refine ⟨fun n i hn hi => ?_, fun n => val_byte_of_le, byte_val, fun d i => pos_eq_testBit_val d⟩
  rw [pos_eq_testBit_val _ hi, val_byte_of_le hn, Nat.toNat_testBit]

end Sys2Proof.Machine

/-! ### The conversion family (R84 to R88) -/

namespace Sys2Proof.Machine

/-- A request with an operation's word decodes to that operation's instruction (R68). -/
theorem decode_of_ctl_eq_word {q : Request} {o : Op} (h : q.ctl = o.word) : decode q = .ok (o.instr q) :=
  (decode_eq_ok_iff q _).2 ⟨o, h, rfl⟩

/-- Of the operations' words only ENC's has `op` = 010. -/
theorem eq_enc_of_op_word {o : Op} (h : o.word.op = 0b010) : o = .enc := by
  cases o with
  | add ta tb => cases ta <;> cases tb <;> cases h
  | adda tb => cases tb <;> cases h
  | enc => rfl
  | dec ta => cases ta <;> cases h

/-- Every word with `op` = 010 other than ENC's is ILLEGAL (R69, R84). -/
theorem decodeCtl_error_of_op_enc {w : Ctl} (hop : w.op = 0b010) (hne : w ≠ Op.enc.word) :
    ∃ e, decodeCtl w = .error e := by
  cases hdecode : decodeCtl w with
  | error e => exact ⟨e, rfl⟩
  | ok o =>
    have hword : w = o.word := (decodeCtl_eq_ok_iff w o).1 hdecode
    have henc : o = .enc := eq_enc_of_op_word (hword ▸ hop)
    exact absurd (henc ▸ hword) hne

/-- Settles O22: ENC's word and no other of its `op` decodes, and ENC is `complete` with A. -/
theorem encLoadsItsBits : Obligations.EncLoadsItsBits :=
  ⟨fun _ => decode_of_ctl_eq_word (o := .enc), fun _ => decodeCtl_error_of_op_enc,
    fun a s => ⟨complete a .byte s, rfl, rfl, rfl⟩,
    val_eq_toNat _, val_eq_toNat _, val_eq_toNat _, val_eq_toNat _⟩

/-- In its tag's domain a checked load is the load (R83). -/
theorem completeInDom_of_mem_dom {t : Tag} {n : Int} (hlo : (dom t).1 ≤ n) (hhi : n ≤ (dom t).2) (d : Byte)
    (s : State) : completeInDom t n d s = complete d t s := by
  have hin : inDom t n = true := (inDom_iff t n).2 ⟨hlo, hhi⟩
  simp [completeInDom, hin]

/-- Outside its tag's domain a checked load only raises RANGE (R83, R133). -/
theorem completeInDom_of_not_mem_dom {t : Tag} {n : Int} (hn : n < (dom t).1 ∨ (dom t).2 < n) (d : Byte)
    (s : State) : completeInDom t n d s = raise .range s := by
  obtain ⟨hin, -⟩ | ⟨-, hraise⟩ := completeInDom_cases t n d s
  · have hmem := (inDom_iff t n).1 hin
    omega
  · exact hraise

/-- The byte loaded for an N in [0,255] shows N (R85, R86). -/
theorem val_byte_toNat {n : Int} (hlo : 0 ≤ n) (hhi : n ≤ 255) : (val (byte n.toNat) : Int) = n := by
  rw [val_byte_of_le (by omega)]
  omega

/-- The byte loaded for an N in [-128,127] shows N, or N + 256 where N is negative (R87). -/
theorem val_byte_emod_of_mem_char {n : Int} (hlo : -128 ≤ n) (hhi : n ≤ 127) :
    (val (byte (n % 256).toNat) : Int) = if 0 ≤ n then n else n + 256 := by
  rw [val_byte_emod]
  split <;> omega

/-- Settles O23: DEC.B is the checked load of `byte N` in BYTE's domain. -/
theorem decBLoadsOrRaisesRange : Obligations.DecBLoadsOrRaisesRange :=
  ⟨fun _ => decode_of_ctl_eq_word (o := .dec .byte),
    fun n s hlo hhi => ⟨complete (byte n.toNat) .byte s, congrArg _ (completeInDom_of_mem_dom hlo hhi _ s), rfl,
      val_byte_toNat hlo hhi⟩,
    fun _ s hn => congrArg _ (completeInDom_of_not_mem_dom hn _ s)⟩

/-- Settles O24: DEC.U is the checked load of `byte N` in UCHAR's domain. -/
theorem decULoadsOrRaisesRange : Obligations.DecULoadsOrRaisesRange :=
  ⟨fun _ => decode_of_ctl_eq_word (o := .dec .uchar),
    fun n s hlo hhi => ⟨complete (byte n.toNat) .uchar s, congrArg _ (completeInDom_of_mem_dom hlo hhi _ s), rfl,
      val_byte_toNat hlo hhi⟩,
    fun _ s hn => congrArg _ (completeInDom_of_not_mem_dom hn _ s)⟩

/-- Settles O25: DEC.S is the checked load of `byte (N mod 256)` in CHAR's domain. -/
theorem decSLoadsOrRaisesRange : Obligations.DecSLoadsOrRaisesRange :=
  ⟨fun _ => decode_of_ctl_eq_word (o := .dec .char),
    fun n s hlo hhi => ⟨complete (byte (n % 256).toNat) .char s,
      congrArg _ (completeInDom_of_mem_dom hlo hhi _ s), rfl, val_byte_emod_of_mem_char hlo hhi⟩,
    fun _ s hn => congrArg _ (completeInDom_of_not_mem_dom hn _ s)⟩

/-- Settles O26: RVAL is in DEC.B's domain (`val_le_255`), and `byte` takes it back to D (`byte_val`). -/
theorem encThenDecBRoundTrip : Obligations.EncThenDecBRoundTrip := by
  intro s d
  obtain ⟨-, -, henc, -⟩ := encLoadsItsBits
  obtain ⟨-, hdecB, -⟩ := decBLoadsOrRaisesRange
  obtain ⟨t, ht, -, hrval⟩ := henc d s
  have hhi : (t.rval : Int) ≤ 255 := by
    rw [hrval]
    exact_mod_cast val_le_255 d
  obtain ⟨u, hu, rfl, -⟩ := hdecB t.rval t (Int.natCast_nonneg _) hhi
  refine ⟨t, _, ht, hu, ?_, rfl, rfl⟩
  calc byte (t.rval : Int).toNat = byte (val d) := by rw [Int.toNat_natCast, hrval]
    _ = d := byte_val d

end Sys2Proof.Machine

/-! ### The full-adder cell and the carry chain (R101, R102) -/

namespace Sys2Proof.Machine

/-- The cell's carry is 1 exactly when two of its inputs are (R101). -/
theorem fullAdder_carry_iff (a b c : Bit) : (fullAdder a b c).2 = true ↔ 2 ≤ a.toNat + b.toNat + c.toNat := by
  cases a <;> cases b <;> cases c <;> decide

/-- The cell's two bits count its inputs (R101). -/
theorem toNat_fullAdder (a b c : Bit) :
    a.toNat + b.toNat + c.toNat = (fullAdder a b c).1.toNat + 2 * (fullAdder a b c).2.toNat := by
  cases a <;> cases b <;> cases c <;> rfl

/-- Settles O17: the formulas are the cell's definition, and the rest is read off its eight rows. -/
theorem fullAdderCell : Obligations.FullAdderCell :=
  fun a b c => ⟨rfl, fullAdder_carry_iff a b c, toNat_fullAdder a b c⟩

/-- No carry goes into p(7) (R102). -/
@[simp] theorem carryInto_zero (x y : Byte) : carryInto x y 0 = false := rfl

/-- The carry out of a position goes into the next (R102). -/
theorem carryInto_succ (x y : Byte) (i : Nat) :
    carryInto x y (i + 1) = (fullAdder (pos x (7 - i)) (pos y (7 - i)) (carryInto x y i)).2 :=
  congrArg Prod.snd (chain_succ x y i)

/-- Settles O18: the chain's first carry, its one pass, and the positions it has written. -/
theorem carryChainPositions : Obligations.CarryChainPositions :=
  fun x y => ⟨carryInto_zero x y, fun i hi => ⟨carryInto_succ x y i, pos_add8 x y hi⟩⟩

/-- The discarded carry is 1 exactly when the sum passes 255 (R103). -/
theorem carryInto_eight_iff (x y : Byte) : carryInto x y 8 = true ↔ 255 < val x + val y := by
  rw [carryInto_eq_carry x y 8 (Nat.le_refl 8), BitVec.carry_width, decide_eq_true_iff, val_eq_toNat, val_eq_toNat]
  exact Nat.lt_iff_add_one_le.symm

/-- Settles O19: the sum byte is the bit vector's sum, the discarded carry the bit vector's carry out. -/
theorem adderWrapsModulo256 : Obligations.AdderWrapsModulo256 :=
  fun x y => ⟨val_add8 x y, carryInto_eight_iff x y⟩

end Sys2Proof.Machine

/-! ### The laws of the adder (R104, R113) -/

namespace Sys2Proof.Machine

/-- The sum is the byte of the sum mod 256 of the integer views (R103, R82). -/
theorem add8_eq_byte (x y : Byte) : add8 x y = byte ((val x + val y) % 256) := by
  rw [← val_add8, byte_val]

/-- The zero byte is an identity (R113). -/
theorem add8_zero (x : Byte) : add8 x 0x00 = x :=
  (add8_eq_add x 0x00).trans (BitVec.add_zero x)

/-- The byte of 256 less the integer view, mod 256, is an inverse (R113). -/
theorem add8_neg (x : Byte) : add8 x (byte ((256 - val x) % 256)) = 0x00 := by
  have hx : val x ≤ 255 := val_le_255 x
  have hsum : (val x + (256 - val x) % 256 % 256) % 256 = 0 := by omega
  rw [add8_eq_byte, val_byte, hsum]
  decide

/-- Settles O20: bit-vector addition is commutative and associative; doubling is the sum of equal integer views. -/
theorem adderIsACommutativeGroup : Obligations.AdderIsACommutativeGroup := by
  refine ⟨fun x y => ?_, fun x y z => ?_, add8_zero, add8_neg, fun x => ?_⟩
  · rw [add8_eq_add, add8_eq_add, BitVec.add_comm]
  · simp only [add8_eq_add, BitVec.add_assoc]
  · rw [add8_eq_byte, two_mul]

/-- Reduction mod 256 turns a sum of integers into the adder's sum, negative integers included (R104). -/
theorem add8_byte_emod (m n : Int) :
    add8 (byte (m % 256).toNat) (byte (n % 256).toNat) = byte ((m + n) % 256).toNat := by
  have hsum : ((m % 256).toNat + (n % 256).toNat) % 256 = ((m + n) % 256).toNat := by omega
  rw [add8_eq_byte, val_byte_emod, val_byte_emod, hsum]

/-- Settles O21: the law holds of all integers, so of the domain of CHAR. -/
theorem adderAddsSignedPatterns : Obligations.AdderAddsSignedPatterns :=
  fun m n _ _ _ _ => add8_byte_emod m n

/-- Where both operands are `x` the carry out of a position is that position of `x`: the majority of a bit taken twice
is that bit. -/
theorem carryInto_self_succ (x : Byte) (i : Nat) : carryInto x x (i + 1) = pos x (7 - i) := by
  rw [carryInto_succ]
  cases pos x (7 - i) <;> simp [fullAdder]

/-- Where both operands are `x` each position of the sum is its carry. -/
theorem pos_add8_self (x : Byte) {j : Nat} (hj : j < 8) : pos (add8 x x) (7 - j) = carryInto x x j := by
  rw [pos_add8 x x hj, Bool.xor_self, Bool.false_xor]

/-- Doubling moves every position one place toward p(0) (R106). -/
theorem pos_double (x : Byte) {i : Nat} (hi : i < 7) : pos (add8 x x) i = pos x (i + 1) := by
  have hpos : 7 - (7 - i) = i := by omega
  have hcarry : 7 - i = (6 - i) + 1 := by omega
  have hnext : 7 - (6 - i) = i + 1 := by omega
  calc pos (add8 x x) i = carryInto x x (7 - i) := by simpa only [hpos] using pos_add8_self x (j := 7 - i) (by omega)
    _ = pos x (i + 1) := by rw [hcarry, carryInto_self_succ, hnext]

end Sys2Proof.Machine

/-! ### The addition family (R105 to R111) -/

namespace Sys2Proof.Machine

/-- An accumulation onto a value of the operand's own addable tag is the addition in place (R109, R110). -/
theorem accumulate_of_rtag_eq {t : Tag} (ht : t = .uchar ∨ t = .char) {s : State} (h : s.rtag = t) (b : Byte) :
    accumulate t b s = complete (add8 s.res b) t s := by
  have hadd : addable s.rtag t = true := (addable_iff s.rtag t).2 ⟨h, h ▸ ht⟩
  simp [accumulate, hadd]

/-- An accumulation onto a value of another tag only raises UNSUPPORTED (R105, R134). -/
theorem accumulate_of_rtag_ne {t : Tag} {s : State} (h : s.rtag ≠ t) (b : Byte) :
    accumulate t b s = raise .unsupported s := by
  obtain ⟨hadd, -⟩ | ⟨-, hraise⟩ := accumulate_cases t b s
  · exact absurd ((addable_iff s.rtag t).1 hadd).1 h
  · exact hraise

/-- An ADD of tags that are not addable only raises UNSUPPORTED (R108). -/
theorem exec_add_of_not_addable {ta tb : Tag} (h : addable ta tb = false) (q : Request) (s : State) :
    exec ((Op.add ta tb).instr q) s = .next (raise .unsupported s) := by
  simp [exec_add, h]

/-- Settles O33: the one rule of the nine ADD forms (`exec_add`) and of the three ADDA forms (`exec_adda`); the check
that an ADDA passes makes RTAG the operand's tag. -/
theorem additionFollowsTheTypeCheck : Obligations.AdditionFollowsTheTypeCheck := by
  refine ⟨addable_iff, fun s q rest ta tb hinbox hdecode => ?_, fun s q rest tb hinbox hdecode => ?_⟩
  · exact (step_of_decodeCtl hinbox hdecode).trans (exec_add ta tb q _)
  · rw [step_of_decodeCtl hinbox hdecode, exec_adda]
    obtain ⟨hadd, hsum⟩ | ⟨hadd, hraise⟩ := accumulate_cases tb q.b { s with inbox := rest }
    · obtain ⟨htag, -⟩ := (addable_iff s.rtag tb).1 hadd
      rw [hsum, if_pos hadd, htag]
      rfl
    · rw [hraise, if_neg (Bool.eq_false_iff.1 hadd)]
      rfl

/-- Settles O27: ADD.UU is `complete` with the sum; A = B is `pos_double`, with no carry into p(7). -/
theorem addUUWritesTheSum : Obligations.AddUUWritesTheSum :=
  ⟨fun _ => decode_of_ctl_eq_word (o := .add .uchar .uchar), fun _ _ _ => rfl, by decide, by decide, by decide,
    by decide, by decide, by decide,
    fun x => ⟨fun _ => pos_double x, pos_add8_self x (j := 0) (by decide), by rw [val_add8, two_mul]⟩⟩

/-- Settles O28: ADD.SS is `complete` with the sum, its corner cases sums of literal bytes. -/
theorem addSSWritesTheSum : Obligations.AddSSWritesTheSum :=
  ⟨fun _ => decode_of_ctl_eq_word (o := .add .char .char), fun _ _ _ => rfl, by decide, by decide, by decide,
    by decide, by decide, by decide⟩

/-- Settles O29: none of the seven pairs of tags is addable. -/
theorem unaddableFormsRaiseUnsupported : Obligations.UnaddableFormsRaiseUnsupported := by
  refine ⟨fun q => ?_, fun a b s => ?_, rfl⟩
  · exact ⟨decode_of_ctl_eq_word (o := .add .byte .byte), decode_of_ctl_eq_word (o := .add .byte .uchar),
      decode_of_ctl_eq_word (o := .add .byte .char), decode_of_ctl_eq_word (o := .add .uchar .byte),
      decode_of_ctl_eq_word (o := .add .uchar .char), decode_of_ctl_eq_word (o := .add .char .byte),
      decode_of_ctl_eq_word (o := .add .char .uchar)⟩
  · have hraise (ta tb : Tag) (h : addable ta tb = false) :=
      exec_add_of_not_addable h { ctl := 0, a := a, b := b, n := 0 } s
    exact ⟨hraise .byte .byte rfl, hraise .byte .uchar rfl, hraise .byte .char rfl, hraise .uchar .byte rfl,
      hraise .uchar .char rfl, hraise .char .byte rfl, hraise .char .uchar rfl⟩

/-- Settles O30: ADDA.U is the accumulation for UCHAR, the tag RTAG has after reset. -/
theorem addaUAddsInPlace : Obligations.AddaUAddsInPlace :=
  ⟨fun _ => decode_of_ctl_eq_word (o := .adda .uchar),
    fun b _ h => congrArg _ (accumulate_of_rtag_eq (.inl rfl) h b),
    fun b _ h => congrArg _ (accumulate_of_rtag_ne h b), rfl, by decide, by decide, add8_zero⟩

/-- Settles O31: ADDA.S is the accumulation for CHAR, which RTAG is not after reset. -/
theorem addaSAddsInPlace : Obligations.AddaSAddsInPlace :=
  ⟨fun _ => decode_of_ctl_eq_word (o := .adda .char),
    fun b _ h => congrArg _ (accumulate_of_rtag_eq (.inr rfl) h b),
    fun b _ h => congrArg _ (accumulate_of_rtag_ne h b), by decide, by decide, by decide, by decide⟩

/-- Settles O32: ADDA.B is `raise` of UNSUPPORTED, which writes ERR alone. -/
theorem addaBRaisesUnsupported : Obligations.AddaBRaisesUnsupported :=
  ⟨fun _ => decode_of_ctl_eq_word (o := .adda .byte), fun _ _ => rfl⟩

end Sys2Proof.Machine

/-! ### What every step keeps (R130, R136) -/

namespace Sys2Proof.Machine

/-- A step leaves ERR at NONE, or at the one error its request raised (R131, R132, R160). -/
theorem step_err_reachable {s s' : State} (h : step s = .next s') : errReachable s'.err := by
  obtain ⟨q, rest, -, hpresent⟩ | ⟨rest, -, rfl⟩ := step_cases h
  · obtain ⟨d, t, hcomplete⟩ | ⟨e, he, hraise⟩ := present_cases q { s with inbox := rest }
    · cases hcomplete.symm.trans hpresent
      exact .inl rfl
    · cases hraise.symm.trans hpresent
      exact .inr he
  · exact .inl rfl

/-- A step takes the first action off the host's list and leaves the others. -/
theorem step_inbox {s s' : State} (h : step s = .next s') : ∃ a, s.inbox = a :: s'.inbox := by
  obtain ⟨q, rest, hinbox, hpresent⟩ | ⟨rest, hinbox, rfl⟩ := step_cases h
  · have hrest : s'.inbox = rest := present_inbox hpresent
    exact ⟨.request q, hrest.symm ▸ hinbox⟩
  · exact ⟨.reset, hinbox⟩

/-- A host within its duty is so after every step. -/
theorem step_dutiful {s s' : State} (hs : s.Dutiful) (h : step s = .next s') : s'.Dutiful := by
  obtain ⟨a, hinbox⟩ := step_inbox h
  intro b hb
  exact hs b (hinbox ▸ List.mem_cons_of_mem a hb)

/-- Settles O43: every step makes ERR reachable, whatever it was, and only shortens the host's list. -/
theorem everyStepKeepsTheInvariant : Obligations.EveryStepKeepsTheInvariant :=
  fun _ _ hinv h => ⟨step_err_reachable h, step_dutiful hinv.dutiful h⟩

/-- A reachable status has none of the codes 2, 3, 5 and 7 (R130). -/
theorem code_of_errReachable {e : Err} (h : errReachable e) : e.code ≠ 2 ∧ e.code ≠ 3 ∧ e.code ≠ 5 ∧ e.code ≠ 7 := by
  obtain rfl | rfl | rfl | rfl := h <;> decide

/-- Settles O36: ERR is reachable after every step, and no tag has the code `11`. -/
theorem unreachableCodesNeverAppear : Obligations.UnreachableCodesNeverAppear := by
  intro s s' h
  obtain ⟨h2, h3, h5, h7⟩ := code_of_errReachable (step_err_reachable h)
  exact ⟨h2, h3, h5, h7, s'.rtag.code_ne_reserved⟩

end Sys2Proof.Machine

/-! ### The cause of an error (R132 to R135) -/

namespace Sys2Proof.Machine

/-- The step of a request is its integer arithmetic on what the host reads. -/
theorem step_request_view {s s' : State} {q : Request} {rest : List HostAction}
    (hinbox : s.inbox = .request q :: rest) (hstep : step s = .next s') : s'.view = s.view.request q := by
  obtain ⟨t, hpresent, hview⟩ := present_view q { s with inbox := rest }
  cases hpresent.symm.trans ((step_cons hinbox).symm.trans hstep)
  exact hview

/-- The failing range check, spelled out (R83, R133). -/
theorem inDom_eq_false_iff (t : Tag) (n : Int) : inDom t n = false ↔ n < (dom t).1 ∨ (dom t).2 < n := by
  rw [← Bool.not_eq_true, inDom_iff]
  omega

/-- Each error of a request has its one cause: the failing check of the operation its word names, or a word that names
none (R133 to R135). -/
theorem view_request_err_cause (q : Request) (v : View) :
    ((v.request q).err = .range ↔ ∃ t, decodeCtl q.ctl = .ok (.dec t) ∧ inDom t q.n = false) ∧
    ((v.request q).err = .unsupported ↔
      (∃ ta tb, decodeCtl q.ctl = .ok (.add ta tb) ∧ addable ta tb = false) ∨
        ∃ tb, decodeCtl q.ctl = .ok (.adda tb) ∧ addable v.rtag tb = false) ∧
    ((v.request q).err = .illegal ↔ ∃ e, decodeCtl q.ctl = .error e) := by
  cases hd : decodeCtl q.ctl with
  | error e => simp [View.request, hd]
  | ok o =>
    cases o with
    | add ta tb => cases hadd : addable ta tb <;> simp [View.request, hd, hadd]
    | adda tb => cases hadd : addable v.rtag tb <;> simp [View.request, hd, hadd]
    | enc => simp [View.request, hd]
    | dec t => cases hdom : inDom t q.n <;> simp [View.request, hd, hdom]

/-- Of the reachable statuses NONE is the one that is no error (R130, R136). -/
theorem eq_none_iff_of_errReachable {e : Err} (h : errReachable e) :
    e = .none ↔ e ≠ .range ∧ e ≠ .unsupported ∧ e ≠ .illegal := by
  obtain rfl | rfl | rfl | rfl := h <;> decide

/-- Settles O35: the causes are those of the request's integer arithmetic, which the step refines, and ERR is
reachable after every step. -/
theorem errTellsTheCause : Obligations.ErrTellsTheCause := by
  intro s s' q rest hinbox hstep
  have herr : s'.err = (s.view.request q).err := congrArg View.err (step_request_view hinbox hstep)
  obtain ⟨hrange, hunsupported, hillegal⟩ := view_request_err_cause q s.view
  simp only [inDom_eq_false_iff, ← herr] at hrange hunsupported hillegal
  exact ⟨hrange, hunsupported, hillegal, eq_none_iff_of_errReachable (step_err_reachable hstep), rfl, rfl, rfl⟩

end Sys2Proof.Machine

/-! ### No step reads ERR (R24, R132, R141) -/

namespace Sys2Proof.Machine

/-! An error raised before has no effect on the shared operations: each writes ERR and none reads it. -/

@[simp] theorem complete_raise (d : Byte) (t : Tag) (e : Err) (s : State) :
    complete d t (raise e s) = complete d t s := rfl

@[simp] theorem completeInDom_raise (t : Tag) (n : Int) (d : Byte) (e : Err) (s : State) :
    completeInDom t n d (raise e s) = completeInDom t n d s := rfl

@[simp] theorem accumulate_raise (t : Tag) (b : Byte) (e : Err) (s : State) :
    accumulate t b (raise e s) = accumulate t b s := rfl

@[simp] theorem resetBlock_raise (e : Err) (s : State) : resetBlock (raise e s) = resetBlock s := rfl

/-- A request does the same whatever error was raised before it. -/
theorem present_raise (q : Request) (e : Err) (s : State) : present q (raise e s) = present q s := by
  cases hd : decodeCtl q.ctl with
  | error e' => rw [present_illegal hd, present_illegal hd, raise_raise]
  | ok o =>
    rw [present_decoded hd, present_decoded hd]
    cases o with
    | add ta tb => simp [exec_add]
    | adda tb => simp [exec_adda]
    | enc => rfl
    | dec t => simp [exec_dec]

/-- An action of the host does the same whatever error was raised before it; a breach of duty has no step either way. -/
theorem perform_raise (a : HostAction) (e : Err) (s : State) : perform a (raise e s) = perform a s := by
  cases a with
  | request q => exact present_raise q e s
  | reset => exact congrArg Host.Outcome.next (resetBlock_raise e s)
  | overlap q q' => rfl
  | requestDuringReset q => rfl
  | readDuring q => rfl

/-- Settles O39: a dutiful action completes, and another value of ERR is one more `raise` before it. -/
theorem earlierErrorHasNoEffect : Obligations.EarlierErrorHasNoEffect := by
  intro s e a rest hinbox ha
  obtain ⟨t, hperform, -⟩ := perform_dutiful ha { s with inbox := rest }
  refine ⟨t, (step_cons hinbox).trans hperform, ?_⟩
  calc step { s with err := e } = perform a (raise e { s with inbox := rest }) := step_cons hinbox
    _ = perform a { s with inbox := rest } := perform_raise a e _
    _ = .next t := hperform

end Sys2Proof.Machine

/-! ### A reset from any state (R160) -/

namespace Sys2Proof.Machine

/-- RES, RTAG and ERR are all that reset writes, and the host's later actions are all that it keeps. -/
theorem resetBlock_eq (s : State) : resetBlock s = { State.reset with inbox := s.inbox } := rfl

theorem perform_reset (s : State) : perform .reset s = .next (resetBlock s) := rfl

/-- Settles O2: the step performs the reset, which writes every register. -/
theorem resetActionRestoresEveryRegister : Obligations.ResetActionRestoresEveryRegister := by
  intro s rest hinbox
  calc step s = perform .reset { s with inbox := rest } := step_cons hinbox
    _ = .next (resetBlock { s with inbox := rest }) := perform_reset _
    _ = .next { State.reset with inbox := rest } := congrArg Host.Outcome.next (resetBlock_eq _)

end Sys2Proof.Machine
